-- ==== Sys2Proof/Word.lean ====
section
/-! DEFINITION. The word types of the core: bytes, 16-bit words, 12-bit addresses of instruction fields, register numbers.
All values are unsigned (00_scope.md R8, 10_state.md R21). -/

namespace Sys2Proof

/-- An 8-bit value: a general register, a timer, a byte of memory (10_state.md R21, R29, R30; 20_memory.md R60). -/
abbrev Byte := BitVec 8

/-- A 16-bit value: `pc`, `I`, a stack entry, an instruction word (10_state.md R24, R25, R27; 30_encoding.md R90). -/
abbrev Word := BitVec 16

/-- The 12-bit field `nnn` (30_encoding.md R92). -/
abbrev Addr := BitVec 12

/-- A register number 0x0..0xF, the value of field `x` or `y` (10_state.md R21). -/
abbrev Reg := Fin 16

end Sys2Proof
end

