-- ==== Sys2Proof/Syntax.lean ====
section
/-! DEFINITION. The instructions: one constructor for each of the 34 rows of spec/opcode_table.json
(30_encoding.md R97), with the operand fields that row leaves free (R91, R92). The field types carry the widths, so no
term of `Instr` holds a register number above 15, a byte above 0xFF or an address above 0xFFF. -/

namespace Sys2Proof

/-- An instruction. `x` and `y` are register numbers, `kk` a byte, `nnn` a 12-bit address, `n` a count of rows. -/
inductive Instr where
  /-- 00E0 CLS (R201) -/
  | cls
  /-- 00EE RET (R120) -/
  | ret
  /-- 1nnn JP nnn (R121) -/
  | jp (nnn : Addr)
  /-- 2nnn CALL nnn (R122) -/
  | call (nnn : Addr)
  /-- 3xkk SE Vx, kk (R124) -/
  | seVxKk (x : Reg) (kk : Byte)
  /-- 4xkk SNE Vx, kk (R125) -/
  | sneVxKk (x : Reg) (kk : Byte)
  /-- 5xy0 SE Vx, Vy (R126) -/
  | seVxVy (x y : Reg)
  /-- 6xkk LD Vx, kk (R142) -/
  | ldVxKk (x : Reg) (kk : Byte)
  /-- 7xkk ADD Vx, kk (R143) -/
  | addVxKk (x : Reg) (kk : Byte)
  /-- 8xy0 LD Vx, Vy (R144) -/
  | ldVxVy (x y : Reg)
  /-- 8xy1 OR Vx, Vy (R145) -/
  | orVxVy (x y : Reg)
  /-- 8xy2 AND Vx, Vy (R146) -/
  | andVxVy (x y : Reg)
  /-- 8xy3 XOR Vx, Vy (R147) -/
  | xorVxVy (x y : Reg)
  /-- 8xy4 ADD Vx, Vy (R148) -/
  | addVxVy (x y : Reg)
  /-- 8xy5 SUB Vx, Vy (R149) -/
  | subVxVy (x y : Reg)
  /-- 8xy6 SHR Vx (R150); `y` is decoded and ignored (R101) -/
  | shr (x y : Reg)
  /-- 8xy7 SUBN Vx, Vy (R151) -/
  | subnVxVy (x y : Reg)
  /-- 8xyE SHL Vx (R152); `y` is decoded and ignored (R101) -/
  | shl (x y : Reg)
  /-- 9xy0 SNE Vx, Vy (R127) -/
  | sneVxVy (x y : Reg)
  /-- Annn LD I, nnn (R170) -/
  | ldI (nnn : Addr)
  /-- Bnnn JP V0, nnn (R123) -/
  | jpV0 (nnn : Addr)
  /-- Cxkk RND Vx, kk (R153) -/
  | rnd (x : Reg) (kk : Byte)
  /-- Dxyn DRW Vx, Vy, n (R202) -/
  | drw (x y : Reg) (n : Fin 16)
  /-- Ex9E SKP Vx (R221) -/
  | skp (x : Reg)
  /-- ExA1 SKNP Vx (R222) -/
  | sknp (x : Reg)
  /-- Fx07 LD Vx, DT (R190) -/
  | ldVxDt (x : Reg)
  /-- Fx0A LD Vx, K (R223) -/
  | ldVxK (x : Reg)
  /-- Fx15 LD DT, Vx (R191) -/
  | ldDtVx (x : Reg)
  /-- Fx18 LD ST, Vx (R192) -/
  | ldStVx (x : Reg)
  /-- Fx1E ADD I, Vx (R171) -/
  | addIVx (x : Reg)
  /-- Fx29 LD F, Vx (R172) -/
  | ldFVx (x : Reg)
  /-- Fx33 LD B, Vx (R173) -/
  | ldBVx (x : Reg)
  /-- Fx55 LD [I], Vx (R174) -/
  | ldMemVx (x : Reg)
  /-- Fx65 LD Vx, [I] (R175) -/
  | ldVxMem (x : Reg)
  deriving DecidableEq, Repr

end Sys2Proof
end

