-- ==== Sys2Proof/WellFormed.lean ====
section
/-! DEFINITION. Which words are instructions. The operand bounds stand in the types of `Instr`, so every term of it is
well formed; the checks left are those of the encoded word, one for each nibble that has a selector
(30_encoding.md R98). They are written from R98 and not from the decoder, so the two can be held against each other. -/

namespace Sys2Proof

/-- Primary nibble 0: the whole word is 0x00E0 or 0x00EE (R98). -/
def legalNibble0 (op : Word) : Bool := op == 0x00E0#16 || op == 0x00EE#16

/-- Primary nibbles 5 and 9: bits 3..0 are 0 (R98). -/
def legalNibble59 (op : Word) : Bool := op.toNat % 16 == 0

/-- Primary nibble 8: bits 3..0 are one of 0 to 7 or E (R98). -/
def legalNibble8 (op : Word) : Bool := [0, 1, 2, 3, 4, 5, 6, 7, 0xE].contains (op.toNat % 16)

/-- Primary nibble E: bits 7..0 are 0x9E or 0xA1 (R98). -/
def legalNibbleE (op : Word) : Bool := [0x9E, 0xA1].contains (op.toNat % 256)

/-- Primary nibble F: bits 7..0 are one of the nine selectors (R98). -/
def legalNibbleF (op : Word) : Bool :=
  [0x07, 0x0A, 0x15, 0x18, 0x1E, 0x29, 0x33, 0x55, 0x65].contains (op.toNat % 256)

/-- The word is an instruction and not one of the illegal words of R99. -/
def legalWord (op : Word) : Bool :=
  let primary := op.toNat / 4096
  if primary = 0x0 then legalNibble0 op
  else if primary = 0x5 ∨ primary = 0x9 then legalNibble59 op
  else if primary = 0x8 then legalNibble8 op
  else if primary = 0xE then legalNibbleE op
  else if primary = 0xF then legalNibbleF op
  else true

end Sys2Proof
end

