-- ==== Sys2Proof/Decode.lean ====
section
/-! DEFINITION. Decoding, total on any bytes, rejecting by name (30_encoding.md R96 to R101, R105); the opcode table of
R97 as rows of mask and match; the encoder, written from the same rows; the assembler's text of R103; the byte order of
the instruction stream (20_memory.md R63). -/

namespace Sys2Proof

/-! ## Fields of a word (30_encoding.md R91, 00_scope.md R9) -/

/-- The dispatch nibble `op[15:12]`. -/
def fieldPrimary (op : Word) : BitVec 4 := op.extractLsb' 12 4

/-- `x = op[11:8]`. -/
def fieldX (op : Word) : Reg := (op.extractLsb' 8 4).toFin

/-- `y = op[7:4]`. -/
def fieldY (op : Word) : Reg := (op.extractLsb' 4 4).toFin

/-- `n = op[3:0]`. -/
def fieldN (op : Word) : Fin 16 := (op.extractLsb' 0 4).toFin

/-- `kk = op[7:0]`. -/
def fieldKk (op : Word) : Byte := op.extractLsb' 0 8

/-- `nnn = op[11:0]`. -/
def fieldNnn (op : Word) : Addr := op.extractLsb' 0 12

/-! ## Decoding -/

/-- Why bytes are no instruction: the classes of illegal words of 30_encoding.md R99, and fewer than two bytes. -/
inductive DecodeReject where
  /-- `0nnn` other than 00E0 and 00EE. -/
  | illegal0 (op : Word)
  /-- `5xyN` with N not 0. -/
  | illegal5 (op : Word)
  /-- `8xyN` with N in 8, 9, A, B, C, D, F. -/
  | illegal8 (op : Word)
  /-- `9xyN` with N not 0. -/
  | illegal9 (op : Word)
  /-- `ExKK` with KK not 9E or A1. -/
  | illegalE (op : Word)
  /-- `FxKK` with KK not one of the nine selectors. -/
  | illegalF (op : Word)
  /-- Fewer than the two bytes every instruction has (R90). -/
  | truncated
  deriving DecidableEq, Repr

/-- Primary nibble 0: the whole word decides (R98; conflict C1). -/
def decode0 (op : Word) : Except DecodeReject Instr :=
  if op = 0x00E0#16 then .ok .cls
  else if op = 0x00EE#16 then .ok .ret
  else .error (.illegal0 op)

/-- Primary nibble 8: bits 3..0 select (R98). -/
def decode8 (op : Word) : Except DecodeReject Instr :=
  let x := fieldX op
  let y := fieldY op
  let n := fieldN op
  if n = 0x0 then .ok (.ldVxVy x y)
  else if n = 0x1 then .ok (.orVxVy x y)
  else if n = 0x2 then .ok (.andVxVy x y)
  else if n = 0x3 then .ok (.xorVxVy x y)
  else if n = 0x4 then .ok (.addVxVy x y)
  else if n = 0x5 then .ok (.subVxVy x y)
  else if n = 0x6 then .ok (.shr x y)
  else if n = 0x7 then .ok (.subnVxVy x y)
  else if n = 0xE then .ok (.shl x y)
  else .error (.illegal8 op)

/-- Primary nibble E: bits 7..0 select (R98). -/
def decodeE (op : Word) : Except DecodeReject Instr :=
  let x := fieldX op
  let kk := fieldKk op
  if kk = 0x9E#8 then .ok (.skp x)
  else if kk = 0xA1#8 then .ok (.sknp x)
  else .error (.illegalE op)

/-- Primary nibble F: bits 7..0 select (R98). -/
def decodeF (op : Word) : Except DecodeReject Instr :=
  let x := fieldX op
  let kk := fieldKk op
  if kk = 0x07#8 then .ok (.ldVxDt x)
  else if kk = 0x0A#8 then .ok (.ldVxK x)
  else if kk = 0x15#8 then .ok (.ldDtVx x)
  else if kk = 0x18#8 then .ok (.ldStVx x)
  else if kk = 0x1E#8 then .ok (.addIVx x)
  else if kk = 0x29#8 then .ok (.ldFVx x)
  else if kk = 0x33#8 then .ok (.ldBVx x)
  else if kk = 0x55#8 then .ok (.ldMemVx x)
  else if kk = 0x65#8 then .ok (.ldVxMem x)
  else .error (.illegalF op)

/-- Decode one word: dispatch on the primary nibble, then on the selector that nibble has (R96, R98). -/
def decodeWord (op : Word) : Except DecodeReject Instr :=
  let p := fieldPrimary op
  let x := fieldX op
  let y := fieldY op
  let n := fieldN op
  let kk := fieldKk op
  let nnn := fieldNnn op
  if p = 0x0#4 then decode0 op
  else if p = 0x1#4 then .ok (.jp nnn)
  else if p = 0x2#4 then .ok (.call nnn)
  else if p = 0x3#4 then .ok (.seVxKk x kk)
  else if p = 0x4#4 then .ok (.sneVxKk x kk)
  else if p = 0x5#4 then if n = 0 then .ok (.seVxVy x y) else .error (.illegal5 op)
  else if p = 0x6#4 then .ok (.ldVxKk x kk)
  else if p = 0x7#4 then .ok (.addVxKk x kk)
  else if p = 0x8#4 then decode8 op
  else if p = 0x9#4 then if n = 0 then .ok (.sneVxVy x y) else .error (.illegal9 op)
  else if p = 0xA#4 then .ok (.ldI nnn)
  else if p = 0xB#4 then .ok (.jpV0 nnn)
  else if p = 0xC#4 then .ok (.rnd x kk)
  else if p = 0xD#4 then .ok (.drw x y n)
  else if p = 0xE#4 then decodeE op
  else decodeF op

/-! ## Byte order of the instruction stream -/

/-- `high_byte << 8 | low_byte`: the byte at the lower address is the high byte (20_memory.md R63). -/
def composeWord (high low : Byte) : Word := high ++ low

/-- The two bytes of a word in the order memory holds them, high byte first (20_memory.md R63). -/
def wordBytes (op : Word) : List Byte := [op.extractLsb' 8 8, op.extractLsb' 0 8]

/-- Decode the instruction at the head of a list of bytes, with the bytes that follow it (R90). -/
def decodeBytes (bytes : List Byte) : Except DecodeReject (Instr × List Byte) :=
  match bytes with
  | high :: low :: rest =>
    match decodeWord (composeWord high low) with
    | .ok i => .ok (i, rest)
    | .error e => .error e
  | _ => .error .truncated

/-- The word of an opcode-table row, given as a number of `nbits` bits; the bits above are 0. -/
def tableWord (nbits w : Nat) : Word := BitVec.ofNat 16 (w % 2 ^ nbits)

/-- The instruction the decoder reads from the word `w`, laid out in memory order and decoded from its bytes. -/
def decodeTableWord (nbits w : Nat) : Option Instr :=
  match decodeBytes (wordBytes (tableWord nbits w)) with
  | .ok (i, _) => some i
  | .error _ => none

/-! ## The encoder -/

/-- A register number or a row count as the 4 bits of its field. -/
def nib (x : Fin 16) : BitVec 4 := BitVec.ofFin x

/-- The word of an instruction, its fields filled in from bit 15 down (30_encoding.md R91, R97). -/
def encode (i : Instr) : Word :=
  match i with
  | .cls => 0x00E0#16
  | .ret => 0x00EE#16
  | .jp nnn => 0x1#4 ++ nnn
  | .call nnn => 0x2#4 ++ nnn
  | .seVxKk x kk => 0x3#4 ++ nib x ++ kk
  | .sneVxKk x kk => 0x4#4 ++ nib x ++ kk
  | .seVxVy x y => 0x5#4 ++ nib x ++ nib y ++ 0x0#4
  | .ldVxKk x kk => 0x6#4 ++ nib x ++ kk
  | .addVxKk x kk => 0x7#4 ++ nib x ++ kk
  | .ldVxVy x y => 0x8#4 ++ nib x ++ nib y ++ 0x0#4
  | .orVxVy x y => 0x8#4 ++ nib x ++ nib y ++ 0x1#4
  | .andVxVy x y => 0x8#4 ++ nib x ++ nib y ++ 0x2#4
  | .xorVxVy x y => 0x8#4 ++ nib x ++ nib y ++ 0x3#4
  | .addVxVy x y => 0x8#4 ++ nib x ++ nib y ++ 0x4#4
  | .subVxVy x y => 0x8#4 ++ nib x ++ nib y ++ 0x5#4
  | .shr x y => 0x8#4 ++ nib x ++ nib y ++ 0x6#4
  | .subnVxVy x y => 0x8#4 ++ nib x ++ nib y ++ 0x7#4
  | .shl x y => 0x8#4 ++ nib x ++ nib y ++ 0xE#4
  | .sneVxVy x y => 0x9#4 ++ nib x ++ nib y ++ 0x0#4
  | .ldI nnn => 0xA#4 ++ nnn
  | .jpV0 nnn => 0xB#4 ++ nnn
  | .rnd x kk => 0xC#4 ++ nib x ++ kk
  | .drw x y n => 0xD#4 ++ nib x ++ nib y ++ nib n
  | .skp x => 0xE#4 ++ nib x ++ 0x9E#8
  | .sknp x => 0xE#4 ++ nib x ++ 0xA1#8
  | .ldVxDt x => 0xF#4 ++ nib x ++ 0x07#8
  | .ldVxK x => 0xF#4 ++ nib x ++ 0x0A#8
  | .ldDtVx x => 0xF#4 ++ nib x ++ 0x15#8
  | .ldStVx x => 0xF#4 ++ nib x ++ 0x18#8
  | .addIVx x => 0xF#4 ++ nib x ++ 0x1E#8
  | .ldFVx x => 0xF#4 ++ nib x ++ 0x29#8
  | .ldBVx x => 0xF#4 ++ nib x ++ 0x33#8
  | .ldMemVx x => 0xF#4 ++ nib x ++ 0x55#8
  | .ldVxMem x => 0xF#4 ++ nib x ++ 0x65#8

/-- The bytes of an instruction in memory order. -/
def encodeBytes (i : Instr) : List Byte := wordBytes (encode i)

/-! ## The opcode table (30_encoding.md R97) -/

/-- One row of the table: a word is the row's instruction exactly when `op &&& mask = pattern`. -/
structure OpcodeRow where
  mnemonic : String
  mask : Word
  pattern : Word
  deriving DecidableEq, Repr

/-- The row of an instruction. -/
def rowOf (i : Instr) : OpcodeRow :=
  match i with
  | .cls => ⟨"CLS", 0xFFFF#16, 0x00E0#16⟩
  | .ret => ⟨"RET", 0xFFFF#16, 0x00EE#16⟩
  | .jp _ => ⟨"JP", 0xF000#16, 0x1000#16⟩
  | .call _ => ⟨"CALL", 0xF000#16, 0x2000#16⟩
  | .seVxKk _ _ => ⟨"SE_VX_KK", 0xF000#16, 0x3000#16⟩
  | .sneVxKk _ _ => ⟨"SNE_VX_KK", 0xF000#16, 0x4000#16⟩
  | .seVxVy _ _ => ⟨"SE_VX_VY", 0xF00F#16, 0x5000#16⟩
  | .ldVxKk _ _ => ⟨"LD_VX_KK", 0xF000#16, 0x6000#16⟩
  | .addVxKk _ _ => ⟨"ADD_VX_KK", 0xF000#16, 0x7000#16⟩
  | .ldVxVy _ _ => ⟨"LD_VX_VY", 0xF00F#16, 0x8000#16⟩
  | .orVxVy _ _ => ⟨"OR", 0xF00F#16, 0x8001#16⟩
  | .andVxVy _ _ => ⟨"AND", 0xF00F#16, 0x8002#16⟩
  | .xorVxVy _ _ => ⟨"XOR", 0xF00F#16, 0x8003#16⟩
  | .addVxVy _ _ => ⟨"ADD_VX_VY", 0xF00F#16, 0x8004#16⟩
  | .subVxVy _ _ => ⟨"SUB", 0xF00F#16, 0x8005#16⟩
  | .shr _ _ => ⟨"SHR", 0xF00F#16, 0x8006#16⟩
  | .subnVxVy _ _ => ⟨"SUBN", 0xF00F#16, 0x8007#16⟩
  | .shl _ _ => ⟨"SHL", 0xF00F#16, 0x800E#16⟩
  | .sneVxVy _ _ => ⟨"SNE_VX_VY", 0xF00F#16, 0x9000#16⟩
  | .ldI _ => ⟨"LD_I", 0xF000#16, 0xA000#16⟩
  | .jpV0 _ => ⟨"JP_V0", 0xF000#16, 0xB000#16⟩
  | .rnd _ _ => ⟨"RND", 0xF000#16, 0xC000#16⟩
  | .drw _ _ _ => ⟨"DRW", 0xF000#16, 0xD000#16⟩
  | .skp _ => ⟨"SKP", 0xF0FF#16, 0xE09E#16⟩
  | .sknp _ => ⟨"SKNP", 0xF0FF#16, 0xE0A1#16⟩
  | .ldVxDt _ => ⟨"LD_VX_DT", 0xF0FF#16, 0xF007#16⟩
  | .ldVxK _ => ⟨"LD_VX_K", 0xF0FF#16, 0xF00A#16⟩
  | .ldDtVx _ => ⟨"LD_DT_VX", 0xF0FF#16, 0xF015#16⟩
  | .ldStVx _ => ⟨"LD_ST_VX", 0xF0FF#16, 0xF018#16⟩
  | .addIVx _ => ⟨"ADD_I_VX", 0xF0FF#16, 0xF01E#16⟩
  | .ldFVx _ => ⟨"LD_F_VX", 0xF0FF#16, 0xF029#16⟩
  | .ldBVx _ => ⟨"LD_B_VX", 0xF0FF#16, 0xF033#16⟩
  | .ldMemVx _ => ⟨"LD_MEM_VX", 0xF0FF#16, 0xF055#16⟩
  | .ldVxMem _ => ⟨"LD_VX_MEM", 0xF0FF#16, 0xF065#16⟩

/-- The 34 rows, in the table's order. -/
def opcodeTable : List OpcodeRow :=
  [rowOf .cls, rowOf .ret, rowOf (.jp 0), rowOf (.call 0), rowOf (.seVxKk 0 0), rowOf (.sneVxKk 0 0)] ++
  [rowOf (.seVxVy 0 0), rowOf (.ldVxKk 0 0), rowOf (.addVxKk 0 0), rowOf (.ldVxVy 0 0), rowOf (.orVxVy 0 0), rowOf (.andVxVy 0 0)] ++
  [rowOf (.xorVxVy 0 0), rowOf (.addVxVy 0 0), rowOf (.subVxVy 0 0), rowOf (.shr 0 0), rowOf (.subnVxVy 0 0), rowOf (.shl 0 0)] ++
  [rowOf (.sneVxVy 0 0), rowOf (.ldI 0), rowOf (.jpV0 0), rowOf (.rnd 0 0), rowOf (.drw 0 0 0), rowOf (.skp 0)] ++
  [rowOf (.sknp 0), rowOf (.ldVxDt 0), rowOf (.ldVxK 0), rowOf (.ldDtVx 0), rowOf (.ldStVx 0), rowOf (.addIVx 0)] ++
  [rowOf (.ldFVx 0), rowOf (.ldBVx 0), rowOf (.ldMemVx 0), rowOf (.ldVxMem 0)]

/-- The word matches the row (R97). -/
def OpcodeRow.accepts (r : OpcodeRow) (op : Word) : Bool := op &&& r.mask == r.pattern

/-! ## The assembler's text (30_encoding.md R103; the spec's decision D23) -/

/-- A hexadecimal digit, in capitals. -/
def asmDigit (d : Fin 16) : Char := ['0', '1', '2', '3', '4', '5', '6', '7', '8', '9', 'A', 'B', 'C', 'D', 'E', 'F'].getD d.val '0'

/-- `V0`..`VF`. -/
def asmReg (x : Reg) : String := String.ofList ['V', asmDigit x]

/-- `0x00`..`0xFF`. -/
def asmByte (kk : Byte) : String :=
  String.ofList ['0', 'x', asmDigit (Fin.ofNat 16 (kk.toNat / 16)), asmDigit (Fin.ofNat 16 kk.toNat)]

/-- `0x000`..`0xFFF`. -/
def asmAddr (nnn : Addr) : String :=
  String.ofList ['0', 'x', asmDigit (Fin.ofNat 16 (nnn.toNat / 256)), asmDigit (Fin.ofNat 16 (nnn.toNat / 16)), asmDigit (Fin.ofNat 16 nnn.toNat)]

/-- The instruction in the spec's notation, destination first. -/
def asmText (i : Instr) : String :=
  match i with
  | .cls => "CLS"
  | .ret => "RET"
  | .jp nnn => "JP " ++ asmAddr nnn
  | .call nnn => "CALL " ++ asmAddr nnn
  | .seVxKk x kk => "SE " ++ asmReg x ++ ", " ++ asmByte kk
  | .sneVxKk x kk => "SNE " ++ asmReg x ++ ", " ++ asmByte kk
  | .seVxVy x y => "SE " ++ asmReg x ++ ", " ++ asmReg y
  | .ldVxKk x kk => "LD " ++ asmReg x ++ ", " ++ asmByte kk
  | .addVxKk x kk => "ADD " ++ asmReg x ++ ", " ++ asmByte kk
  | .ldVxVy x y => "LD " ++ asmReg x ++ ", " ++ asmReg y
  | .orVxVy x y => "OR " ++ asmReg x ++ ", " ++ asmReg y
  | .andVxVy x y => "AND " ++ asmReg x ++ ", " ++ asmReg y
  | .xorVxVy x y => "XOR " ++ asmReg x ++ ", " ++ asmReg y
  | .addVxVy x y => "ADD " ++ asmReg x ++ ", " ++ asmReg y
  | .subVxVy x y => "SUB " ++ asmReg x ++ ", " ++ asmReg y
  | .shr x _ => "SHR " ++ asmReg x
  | .subnVxVy x y => "SUBN " ++ asmReg x ++ ", " ++ asmReg y
  | .shl x _ => "SHL " ++ asmReg x
  | .sneVxVy x y => "SNE " ++ asmReg x ++ ", " ++ asmReg y
  | .ldI nnn => "LD I, " ++ asmAddr nnn
  | .jpV0 nnn => "JP V0, " ++ asmAddr nnn
  | .rnd x kk => "RND " ++ asmReg x ++ ", " ++ asmByte kk
  | .drw x y n => "DRW " ++ asmReg x ++ ", " ++ asmReg y ++ ", " ++ toString n.val
  | .skp x => "SKP " ++ asmReg x
  | .sknp x => "SKNP " ++ asmReg x
  | .ldVxDt x => "LD " ++ asmReg x ++ ", DT"
  | .ldVxK x => "LD " ++ asmReg x ++ ", K"
  | .ldDtVx x => "LD DT, " ++ asmReg x
  | .ldStVx x => "LD ST, " ++ asmReg x
  | .addIVx x => "ADD I, " ++ asmReg x
  | .ldFVx x => "LD F, " ++ asmReg x
  | .ldBVx x => "LD B, " ++ asmReg x
  | .ldMemVx x => "LD [I], " ++ asmReg x
  | .ldVxMem x => "LD " ++ asmReg x ++ ", [I]"

end Sys2Proof
end

