-- ==== Sys2Proof/Config.lean ====
section
/-! DEFINITION. The implementation parameters of 00_scope.md R7 that the source fixes, and the two inputs the spec
leaves free: the random draw (00_scope.md R13) and the host's operations (60_exceptions.md R270, R271). The font parameters stand in Machine/Ops.lean. -/

namespace Sys2Proof

/-- MEM_SIZE: 4096 bytes, addresses 0x000 to 0xFFF (00_scope.md R7). -/
def Config.memSize : Nat := 4096

/-- ENTRY: the address the image is loaded at and the reset value of `pc` (00_scope.md R7). -/
def Config.entry : Nat := 0x200

/-- FREE VALUE. The byte the environment answers to the draw numbered `n` (`rand8()`, 00_scope.md R13): it has no body,
so nothing can be proved that depends on which byte comes back (log entry 3). -/
opaque Config.rand8 : Nat → BitVec 8

/-- The six operations the environment requests (60_exceptions.md R270). -/
inductive HostOp where
  | reset
  | load (image : List Byte)
  | cycle
  | tickTimers
  | setKey (k : Fin 16) (pressed : Bool)
  | ackRender
  deriving DecidableEq, Repr, Inhabited

/-- FREE VALUE. The `n`-th operation of an endless sequence that the host chooses (60_exceptions.md R271): it has no body, so
whatever is proved of a schedule that goes on this way holds for every infinite sequence of operations (log entry 2). -/
opaque Config.hostOp : Nat → HostOp

end Sys2Proof
end

