-- ==== Sys2Proof/Machine/State.lean ====
section
/-! DEFINITION. The state of the core (10_state.md R20, R38), the environment's pending inputs, the reasons a step could
stop, and the state after reset. -/

namespace Sys2Proof.Machine

/-- The fault causes of 60_exceptions.md R241. -/
inductive Cause where
  /-- code 0: no fault has been recorded -/
  | noCause
  /-- code 1: the word matches no row of the opcode table -/
  | illegalOpcode
  /-- code 2: CALL with 16 entries held -/
  | stackOverflow
  /-- code 3: RET with no entry held -/
  | stackUnderflow
  /-- code 4: fetch with `pc` above 0xFFE -/
  | fetchOutOfBounds
  /-- code 5: a data access above 0xFFF -/
  | dataOutOfBounds
  /-- code 6: a load that does not fit -/
  | loadOutOfBounds
  deriving DecidableEq, Repr

/-- The fault record (10_state.md R35). `faultOpcode` is `none` for the marker `none` of the rule. -/
structure FaultRecord where
  cause : Cause
  faultPc : Word
  faultOpcode : Option Word
  deriving DecidableEq, Repr

/-- The record `{0, 0x0000, none}` of 10_state.md R38. -/
def FaultRecord.empty : FaultRecord := ⟨.noCause, 0x0000#16, none⟩

/-- How the host goes on once the listed operations are done (60_exceptions.md R271). -/
inductive Onward where
  /-- it requests nothing further: the sequence is finite -/
  | stop
  /-- it requests these operations in order, over and over -/
  | repeating (first : HostOp) (others : List HostOp)
  /-- it requests an endless sequence of which nothing is known, `Config.hostOp` -/
  | free
  deriving DecidableEq, Repr

/-- MODEL'S OWN: the host's schedule, "a finite or infinite sequence of operations" (60_exceptions.md R271), as plain data
(log entry 2). -/
structure Schedule where
  /-- the operations that come next, in order -/
  pending : List HostOp
  /-- what follows them -/
  onward : Onward
  /-- how many operations of the free sequence are used up, the argument of `Config.hostOp` -/
  taken : Nat
  deriving DecidableEq, Repr

/-- Memory: the bytes that differ from what an unlisted address reads as, by rising address (see `Memory.wf`). -/
abbrev Memory := List Host.Cell

/-- The framebuffer: 32 rows of 64 pixels (10_state.md R32). -/
abbrev Framebuffer := Vector (Vector Bool 64) 32

/-- The state. Fields `v` to `fault` are the list of 10_state.md R20, whole; the last three are the model's own and
hold the inputs of the environment, which the spec calls parameters of the step. -/
@[ext]
structure State where
  /-- V0..VF; VF is also the flag (R21, R22) -/
  v : Vector Byte 16
  /-- `I` (R24) -/
  i : Word
  /-- the program counter (R25) -/
  pc : Word
  /-- the call stack's entries, stale ones included (R27) -/
  stack : Vector Word 16
  /-- how many entries are held, 0..16 (R27) -/
  sp : Fin 17
  /-- the delay timer `DT` (R29) -/
  dt : Byte
  /-- the sound timer `ST` (R30) -/
  st : Byte
  /-- `mem` (20_memory.md R60) -/
  mem : Memory
  /-- `fb[r][c]` (R32) -/
  fb : Framebuffer
  /-- the framebuffer changed since the last acknowledgement (R33) -/
  dirty : Bool
  /-- which keys are pressed (R31) -/
  keys : Vector Bool 16
  /-- the last word fetched (R34) -/
  opcodeReg : Word
  /-- a fatal error has stopped the core (R35) -/
  halted : Bool
  /-- the record of that error (R35) -/
  fault : FaultRecord
  /-- MODEL'S OWN: the operations the host will request (log entry 2) -/
  schedule : Schedule
  /-- MODEL'S OWN: the bytes the environment answers to the coming random draws (log entry 3) -/
  draws : List Byte
  /-- MODEL'S OWN: the number of the next draw once `draws` is used up, the argument of `Config.rand8` (log entry 3) -/
  drawCount : Nat
  deriving DecidableEq, Repr

/-- The reasons a step can stop: NONE. Every fatal error of this core is entered as a next state (60_exceptions.md R242,
R245), so no step of the model answers a fault; the type has no constructor (log entry 1; safe: nothing is hidden by a
stop). -/
inductive Fault where
  deriving DecidableEq, Repr

/-- The reasons the model gives an instruction no meaning. -/
inductive Refusal where
  /-- Raised by an arm of `exec` whose instruction has no meaning yet; no arm of this model raises it (safe). -/
  | notModelled (mnemonic : String)
  deriving DecidableEq, Repr

/-- What a meaning and a step answer. -/
abbrev Result := Host.Outcome State Fault Refusal

/-- The state after reset (10_state.md R38). Memory lists nothing: unlisted addresses read as the reset contents
(20_memory.md R66, R68). -/
def State.reset : State where
  v := Vector.replicate 16 0x00#8
  i := 0x0000#16
  pc := 0x0200#16
  stack := Vector.replicate 16 0x0000#16
  sp := 0
  dt := 0x00#8
  st := 0x00#8
  mem := []
  fb := Vector.replicate 32 (Vector.replicate 64 false)
  dirty := false
  keys := Vector.replicate 16 false
  opcodeReg := 0x0000#16
  halted := false
  fault := FaultRecord.empty
  schedule := { pending := [], onward := .repeating .cycle [], taken := 0 }
  draws := []
  drawCount := 0

end Sys2Proof.Machine
end

