-- ==== Sys2Proof/Machine/Ops.lean ====
section
/-! DEFINITION. The named operations over memory, registers, pc and stack, the draw, and taking a fatal error
(60_exceptions.md R242). There is no return from a fault (R246): only reset leaves the halted state. -/

namespace Sys2Proof.Machine

/-! ## The fontset and the reset contents of memory -/

/-- FONT_BASE (00_scope.md R7; the spec's decision D1). -/
def fontBase : Nat := 0x050

/-- FONT: the 80 bytes of 20_memory.md R68, one glyph a line (general knowledge, the spec's decision D2; log entry 4). -/
def fontset : List Byte :=
  [0xF0#8, 0x90#8, 0x90#8, 0x90#8, 0xF0#8] ++
  [0x20#8, 0x60#8, 0x20#8, 0x20#8, 0x70#8] ++
  [0xF0#8, 0x10#8, 0xF0#8, 0x80#8, 0xF0#8] ++
  [0xF0#8, 0x10#8, 0xF0#8, 0x10#8, 0xF0#8] ++
  [0x90#8, 0x90#8, 0xF0#8, 0x10#8, 0x10#8] ++
  [0xF0#8, 0x80#8, 0xF0#8, 0x10#8, 0xF0#8] ++
  [0xF0#8, 0x80#8, 0xF0#8, 0x90#8, 0xF0#8] ++
  [0xF0#8, 0x10#8, 0x20#8, 0x40#8, 0x40#8] ++
  [0xF0#8, 0x90#8, 0xF0#8, 0x90#8, 0xF0#8] ++
  [0xF0#8, 0x90#8, 0xF0#8, 0x10#8, 0xF0#8] ++
  [0xF0#8, 0x90#8, 0xF0#8, 0x90#8, 0x90#8] ++
  [0xE0#8, 0x90#8, 0xE0#8, 0x90#8, 0xE0#8] ++
  [0xF0#8, 0x80#8, 0x80#8, 0x80#8, 0xF0#8] ++
  [0xE0#8, 0x90#8, 0x90#8, 0x90#8, 0xE0#8] ++
  [0xF0#8, 0x80#8, 0xF0#8, 0x80#8, 0xF0#8] ++
  [0xF0#8, 0x80#8, 0xF0#8, 0x80#8, 0x80#8]

/-- What an address holds after reset: the fontset at `fontBase`, 0x00 elsewhere (10_state.md R38). It is what an address
that `Memory` does not list reads as. -/
def resetByte (a : Nat) : Byte := if a < fontBase then 0x00#8 else fontset.getD (a - fontBase) 0x00#8

/-! ## Memory (20_memory.md) -/

/-- `MemRead(a, 1)` (00_scope.md R10, 20_memory.md R69). -/
def Memory.read (m : Memory) (a : Nat) : Byte :=
  match m with
  | [] => resetByte a
  | c :: rest => if c.1 = a then c.2 else Memory.read rest a

/-- List a byte before the first greater address. -/
def Memory.insertCell (m : Memory) (a : Nat) (b : Byte) : Memory :=
  match m with
  | [] => [(a, b)]
  | c :: rest => if a < c.1 then (a, b) :: c :: rest else c :: Memory.insertCell rest a b

/-- List no byte for an address. -/
def Memory.eraseCell (m : Memory) (a : Nat) : Memory := m.filter (fun c => c.1 != a)

/-- `MemWrite(a, 1, b)` (00_scope.md R10). Writing what an unlisted address reads as lists nothing, so equal memories are
equal lists. -/
def Memory.write (m : Memory) (a : Nat) (b : Byte) : Memory :=
  if b = resetByte a then m.eraseCell a else (m.eraseCell a).insertCell a b

/-- Write bytes at ascending addresses from `a`: the stores of Fx33 and Fx55 and the copies of load. -/
def Memory.writeBytes (m : Memory) (a : Nat) (bs : List Byte) : Memory :=
  match bs with
  | [] => m
  | b :: rest => Memory.writeBytes (m.write a b) (a + 1) rest

/-- The `n` bytes at `a`, `a + 1`, and so on. -/
def Memory.readBytes (m : Memory) (a n : Nat) : List Byte := (List.range n).map (fun k => m.read (a + k))

/-- The canonical form: addresses strictly rising and inside 0x000..0xFFF, no byte that an unlisted address reads as. -/
abbrev Memory.wf (m : Memory) : Prop :=
  m.Pairwise (fun c d => c.1 < d.1) ∧ ∀ c ∈ m, c.1 < Config.memSize ∧ c.2 ≠ resetByte c.1

/-- The address is in `mem`: not above 0xFFF (20_memory.md R62). -/
def inMemory (a : Nat) : Bool := decide (a ≤ 0xFFF)

/-! ## Registers and pc -/

/-- `V[x]` (10_state.md R21). -/
def readV (s : State) (x : Reg) : Byte := s.v[x]

/-- `V[x] <- b`; no register is hardwired (10_state.md R21). -/
def writeV (s : State) (x : Reg) (b : Byte) : State := { s with v := s.v.set x b }

/-- The number of VF, the flag register (10_state.md R22). -/
def regF : Reg := 0xF

/-- `pc <- trunc_16(pc + 2)`: the advance after a fetch and, once more, a skip (30_encoding.md R95, 40_control.md R124). -/
def advancePc (s : State) : State := { s with pc := s.pc + 2 }

/-- Skip the next instruction if the condition holds (40_control.md R124, R128). -/
def skipIf (c : Bool) (s : State) : State := if c then advancePc s else s

/-! ## The random draw (00_scope.md R13) -/

/-- The byte the environment answers to this draw. -/
def drawByte (s : State) : Byte :=
  match s.draws with
  | d :: _ => d
  | [] => Config.rand8 s.drawCount

/-- The draw is used up: the next one is fresh. -/
def afterDraw (s : State) : State :=
  match s.draws with
  | _ :: rest => { s with draws := rest }
  | [] => { s with drawCount := s.drawCount + 1 }

/-! ## Taking a fatal error (60_exceptions.md R241, R242) -/

/-- The numeric code of a cause (R241; the spec's decision D6). -/
def causeCode (c : Cause) : Nat :=
  match c with
  | .noCause => 0
  | .illegalOpcode => 1
  | .stackOverflow => 2
  | .stackUnderflow => 3
  | .fetchOutOfBounds => 4
  | .dataOutOfBounds => 5
  | .loadOutOfBounds => 6

/-- Fault entry: `pc <- a`, `halted <- 1`, the record written, nothing else changed (R242). -/
def enterFault (c : Cause) (a : Word) (op : Option Word) (s : State) : State :=
  { s with pc := a, halted := true, fault := ⟨c, a, op⟩ }

/-- `raise C` inside an instruction: `pc` already holds `a + 2` and `opcode_reg` the word, so `a` is `pc - 2` and the
opcode is `opcode_reg` (30_encoding.md R94, R95; log entry 5). -/
def raise (c : Cause) (s : State) : Result := .next (enterFault c (s.pc - 2) (some s.opcodeReg) s)

/-! ## The call stack (10_state.md R28) -/

/-- `Push(v)`; none when 16 entries are held, and then nothing has changed. -/
def push (w : Word) (s : State) : Option State :=
  if h : s.sp.val < 16 then
    some { s with stack := s.stack.set s.sp.val w, sp := ⟨s.sp.val + 1, by omega⟩ }
  else none

/-- `Pop()`, with the entry it returns; none when no entry is held. The entry stays as a stale one. -/
def pop (s : State) : Option (Word × State) :=
  if h : s.sp.val = 0 then none
  else some (s.stack[s.sp.val - 1]'(by omega), { s with sp := ⟨s.sp.val - 1, by omega⟩ })

end Sys2Proof.Machine
end

