-- ==== Sys2Proof/Machine/Flags.lean ====
section
/-! DEFINITION. The results and flags of the five instructions that write VF from arithmetic (41_alu.md R148 to R152) and
the order of their two writes (R141). -/

namespace Sys2Proof.Machine

/-- A flag as the byte VF holds: 1 or 0. -/
def flagByte (f : Bool) : Byte := if f then 0x01#8 else 0x00#8

/-- The sum modulo 256 and the carry: the exact sum is above 255 (R148). -/
def addCarry (a b : Byte) : Byte × Bool :=
  let sum := a.toNat + b.toNat
  (BitVec.ofNat 8 sum, decide (sum > 255))

/-- `a - b` modulo 256 and NOT borrow: `a >= b` (R149, R151). -/
def subNotBorrow (a b : Byte) : Byte × Bool :=
  (BitVec.ofNat 8 (a.toNat + 256 - b.toNat), decide (a.toNat ≥ b.toNat))

/-- The byte shifted right by one and the bit shifted out, bit 0 (R150). -/
def shiftRightOut (a : Byte) : Byte × Bool := (a >>> 1, a.getLsbD 0)

/-- The byte shifted left by one and the bit shifted out, bit 7 (R152). -/
def shiftLeftOut (a : Byte) : Byte × Bool := (a <<< 1, a.getLsbD 7)

/-- `V[x] <- r`, then `V[0xF] <- f`: where x = F the flag remains (R141; the spec's decision D7). -/
def writeResultFlag (s : State) (x : Reg) (rf : Byte × Bool) : State :=
  writeV (writeV s x rf.1) regF (flagByte rf.2)

end Sys2Proof.Machine
end

