-- ==== Sys2Proof/Machine/Alu.lean ====
section
/-! DEFINITION. Register loads, arithmetic, logic, shifts and random (41_alu.md). None of them touches memory or pc, and
none can raise a fault. -/

namespace Sys2Proof.Machine

/-- 6xkk LD Vx, kk (R142). -/
def execLdVxKk (x : Reg) (kk : Byte) (s : State) : Result := .next (writeV s x kk)

/-- 7xkk ADD Vx, kk (R143): modulo 256, no flag. -/
def execAddVxKk (x : Reg) (kk : Byte) (s : State) : Result := .next (writeV s x (readV s x + kk))

/-- 8xy0 LD Vx, Vy (R144). -/
def execLdVxVy (x y : Reg) (s : State) : Result := .next (writeV s x (readV s y))

/-- 8xy1 OR Vx, Vy (R145): no flag. -/
def execOr (x y : Reg) (s : State) : Result := .next (writeV s x (readV s x ||| readV s y))

/-- 8xy2 AND Vx, Vy (R146): no flag. -/
def execAnd (x y : Reg) (s : State) : Result := .next (writeV s x (readV s x &&& readV s y))

/-- 8xy3 XOR Vx, Vy (R147): no flag. -/
def execXor (x y : Reg) (s : State) : Result := .next (writeV s x (readV s x ^^^ readV s y))

/-- 8xy4 ADD Vx, Vy (R148): VF is the carry. -/
def execAddVxVy (x y : Reg) (s : State) : Result := .next (writeResultFlag s x (addCarry (readV s x) (readV s y)))

/-- 8xy5 SUB Vx, Vy (R149): VF is NOT borrow. -/
def execSub (x y : Reg) (s : State) : Result := .next (writeResultFlag s x (subNotBorrow (readV s x) (readV s y)))

/-- 8xy6 SHR Vx (R150): `y` is ignored (the spec's decision D13). -/
def execShr (x : Reg) (s : State) : Result := .next (writeResultFlag s x (shiftRightOut (readV s x)))

/-- 8xy7 SUBN Vx, Vy (R151): Vy minus Vx. -/
def execSubn (x y : Reg) (s : State) : Result := .next (writeResultFlag s x (subNotBorrow (readV s y) (readV s x)))

/-- 8xyE SHL Vx (R152): `y` is ignored (the spec's decision D13). -/
def execShl (x : Reg) (s : State) : Result := .next (writeResultFlag s x (shiftLeftOut (readV s x)))

/-- Cxkk RND Vx, kk (R153): a fresh draw under a mask; the draw is a free value (00_scope.md R13). -/
def execRnd (x : Reg) (kk : Byte) (s : State) : Result := .next (writeV (afterDraw s) x (drawByte s &&& kk))

end Sys2Proof.Machine
end

