-- ==== Sys2Proof/Machine/Operands.lean ====
section
/-! DEFINITION. The operand forms: immediates, the masked key index and glyph digit, the I-relative addresses and their
bounds, the BCD digits (30_encoding.md R92, 42_index_memory.md R176, 45_input.md R220). -/

namespace Sys2Proof.Machine

/-- `zext_16(nnn)` (30_encoding.md R92). -/
def zextAddr (nnn : Addr) : Word := nnn.setWidth 16

/-- `zext_16` of a byte. -/
def zextByte (b : Byte) : Word := b.setWidth 16

/-- `V[x] & 0x0F`: a key index or a glyph digit (45_input.md R220, 42_index_memory.md R172; the spec's decision D10). -/
def lowNibble (b : Byte) : Fin 16 := Fin.ofNat 16 (b &&& 0x0F#8).toNat

/-- The key that `V[x]` names is pressed (45_input.md R220, R221). -/
def keyPressed (s : State) (x : Reg) : Bool := s.keys[lowNibble (readV s x)]

/-- The lowest-indexed pressed key, if any (45_input.md R223). -/
def lowestPressed (keys : Vector Bool 16) : Option (Fin 16) := (List.finRange 16).find? (fun k => keys[k])

/-- `(I + zext_16(V[x])) mod 4096` (42_index_memory.md R171). -/
def indexSum (i : Word) (b : Byte) : Word := BitVec.ofNat 16 ((i.toNat + b.toNat) % 4096)

/-- `FONT_BASE + 5 * (V[x] & 0x0F)` (42_index_memory.md R172). -/
def glyphAddress (b : Byte) : Word := BitVec.ofNat 16 (fontBase + 5 * (lowNibble b).val)

/-- The address of an I-relative access: the full sum, not reduced (20_memory.md R62, 42_index_memory.md R176). -/
def indexed (s : State) (offset : Nat) : Nat := s.i.toNat + offset

/-- Hundreds, tens and ones of a byte (42_index_memory.md R173). -/
def bcdDigits (b : Byte) : List Byte := [b / 100#8, b / 10#8 % 10#8, b % 10#8]

/-- V0..Vx, the bytes Fx55 stores (42_index_memory.md R174). -/
def registersUpTo (s : State) (x : Reg) : List Byte := s.v.toList.take (x.val + 1)

/-- V0..Vx from memory at `I`, the registers above unchanged (42_index_memory.md R175). -/
def registersLoaded (s : State) (x : Reg) : Vector Byte 16 :=
  Vector.ofFn (fun k : Fin 16 => if k.val ≤ x.val then s.mem.read (indexed s k.val) else s.v[k])

end Sys2Proof.Machine
end

