-- ==== Sys2Proof/Machine/Control.lean ====
section
/-! DEFINITION. Control transfer and skips (40_control.md). When execute begins `pc` holds `a + 2`, the address of the
following instruction (30_encoding.md R95). -/

namespace Sys2Proof.Machine

/-- 00EE RET (R120). -/
def execRet (s : State) : Result :=
  match pop s with
  | some (target, t) => .next { t with pc := target }
  | none => raise .stackUnderflow s

/-- 1nnn JP nnn (R121). -/
def execJp (nnn : Addr) (s : State) : Result := .next { s with pc := zextAddr nnn }

/-- 2nnn CALL nnn (R122): pushes `a + 2`. -/
def execCall (nnn : Addr) (s : State) : Result :=
  match push s.pc s with
  | some t => .next { t with pc := zextAddr nnn }
  | none => raise .stackOverflow s

/-- Bnnn JP V0, nnn (R123): the sum is not masked. -/
def execJpV0 (nnn : Addr) (s : State) : Result := .next { s with pc := zextByte (readV s 0) + zextAddr nnn }

/-- 3xkk SE Vx, kk (R124). -/
def execSeVxKk (x : Reg) (kk : Byte) (s : State) : Result := .next (skipIf (readV s x == kk) s)

/-- 4xkk SNE Vx, kk (R125). -/
def execSneVxKk (x : Reg) (kk : Byte) (s : State) : Result := .next (skipIf (readV s x != kk) s)

/-- 5xy0 SE Vx, Vy (R126). -/
def execSeVxVy (x y : Reg) (s : State) : Result := .next (skipIf (readV s x == readV s y) s)

/-- 9xy0 SNE Vx, Vy (R127). -/
def execSneVxVy (x y : Reg) (s : State) : Result := .next (skipIf (readV s x != readV s y) s)

end Sys2Proof.Machine
end

