-- ==== Sys2Proof/Machine/Display.lean ====
section
/-! DEFINITION. The display instructions (44_display.md). -/

namespace Sys2Proof.Machine

/-- The pixel at row `r`, column `c` (10_state.md R32). -/
def getPixel (fb : Framebuffer) (r : Fin 32) (c : Fin 64) : Bool := fb[r][c]

/-- The framebuffer with the pixel at row `r`, column `c` inverted. -/
def flipPixel (fb : Framebuffer) (r : Fin 32) (c : Fin 64) : Framebuffer := fb.set r (fb[r].set c (!fb[r][c]))

/-- The framebuffer as the renderer sees it: pixel (r, c) at index `r * 64 + c` (10_state.md R32, 60_exceptions.md R272). -/
def flatFramebuffer (fb : Framebuffer) : List Bool := fb.toList.flatMap (fun row => row.toList)

/-- `(y0 + row) mod 32`: the framebuffer row of a sprite row (R200). -/
def spriteRow (y0 : Byte) (row : Nat) : Fin 32 := Fin.ofNat 32 (y0.toNat + row)

/-- `(x0 + col) mod 64`: the framebuffer column of a sprite column (R200). -/
def spriteCol (x0 : Byte) (col : Nat) : Fin 64 := Fin.ofNat 64 (x0.toNat + col)

/-- What a draw carries from pixel to pixel: the framebuffer so far, `collide` and `changed` (R202). -/
structure DrawState where
  fb : Framebuffer
  collide : Bool
  changed : Bool
  deriving DecidableEq, Repr

/-- One bit of a sprite byte, column 0 being bit 7: a set bit inverts its pixel (R202). -/
def drawBit (x0 y0 : Byte) (row : Nat) (b : Byte) (d : DrawState) (col : Nat) : DrawState :=
  if b.getLsbD (7 - col) then
    let r := spriteRow y0 row
    let c := spriteCol x0 col
    { fb := flipPixel d.fb r c, collide := d.collide || getPixel d.fb r c, changed := true }
  else d

/-- One row of a sprite: the eight columns in order (R202). -/
def drawRow (m : Memory) (base : Nat) (x0 y0 : Byte) (d : DrawState) (row : Nat) : DrawState :=
  (List.range 8).foldl (drawBit x0 y0 row (m.read (base + row))) d

/-- The `n` rows of a sprite at `base`, drawn at column `x0`, row `y0` (R202). -/
def drawSprite (m : Memory) (base : Nat) (x0 y0 : Byte) (n : Nat) (fb : Framebuffer) : DrawState :=
  (List.range n).foldl (drawRow m base x0 y0) { fb := fb, collide := false, changed := false }

/-- 00E0 CLS (R201): `dirty` is set whatever the framebuffer held. -/
def execCls (s : State) : Result :=
  .next { s with fb := Vector.replicate 32 (Vector.replicate 64 false), dirty := true }

/-- Dxyn DRW Vx, Vy, n (R202): the coordinates are read before VF is written (the spec's decision D8), and no row is drawn
and no bound checked where n = 0 (D9). -/
def execDrw (x y : Reg) (n : Fin 16) (s : State) : Result :=
  if n.val = 0 ∨ inMemory (indexed s (n.val - 1)) = true then
    let d := drawSprite s.mem (indexed s 0) (readV s x) (readV s y) n.val s.fb
    .next { writeV s regF (flagByte d.collide) with fb := d.fb, dirty := s.dirty || d.changed }
  else raise .dataOutOfBounds s

end Sys2Proof.Machine
end

