-- ==== Sys2Proof/Machine/Index.lean ====
section
/-! DEFINITION. The index register, the font address, BCD and block transfers (42_index_memory.md). Every address is checked
before anything is written (20_memory.md R62). -/

namespace Sys2Proof.Machine

/-- Annn LD I, nnn (R170). -/
def execLdI (nnn : Addr) (s : State) : Result := .next { s with i := zextAddr nnn }

/-- Fx1E ADD I, Vx (R171): modulo 4096, VF not written. -/
def execAddIVx (x : Reg) (s : State) : Result := .next { s with i := indexSum s.i (readV s x) }

/-- Fx29 LD F, Vx (R172). -/
def execLdFVx (x : Reg) (s : State) : Result := .next { s with i := glyphAddress (readV s x) }

/-- Fx33 LD B, Vx (R173). -/
def execLdBVx (x : Reg) (s : State) : Result :=
  if inMemory (indexed s 2) then .next { s with mem := s.mem.writeBytes (indexed s 0) (bcdDigits (readV s x)) }
  else raise .dataOutOfBounds s

/-- Fx55 LD [I], Vx (R174): `I` is unchanged (the spec's decision D14). -/
def execLdMemVx (x : Reg) (s : State) : Result :=
  if inMemory (indexed s x.val) then .next { s with mem := s.mem.writeBytes (indexed s 0) (registersUpTo s x) }
  else raise .dataOutOfBounds s

/-- Fx65 LD Vx, [I] (R175): `I` is unchanged (the spec's decision D14). -/
def execLdVxMem (x : Reg) (s : State) : Result :=
  if inMemory (indexed s x.val) then .next { s with v := registersLoaded s x }
  else raise .dataOutOfBounds s

end Sys2Proof.Machine
end

