-- ==== Sys2Proof/Machine/Input.lean ====
section
/-! DEFINITION. Key input instructions and the key wait (45_input.md). No instruction writes `keys` (the spec's decisions
D11 and D12). -/

namespace Sys2Proof.Machine

/-- Ex9E SKP Vx (R221). -/
def execSkp (x : Reg) (s : State) : Result := .next (skipIf (keyPressed s x) s)

/-- ExA1 SKNP Vx (R222). -/
def execSknp (x : Reg) (s : State) : Result := .next (skipIf (!keyPressed s x) s)

/-- Fx0A LD Vx, K (R223): with no key pressed `pc` goes back to the instruction, which is fetched again. -/
def execLdVxK (x : Reg) (s : State) : Result :=
  match lowestPressed s.keys with
  | some k => .next (writeV s x (BitVec.ofNat 8 k.val))
  | none => .next { s with pc := s.pc - 2 }

end Sys2Proof.Machine
end

