-- ==== Sys2Proof/Machine/Timers.lean ====
section
/-! DEFINITION. The timer instructions (43_timers.md). The decay is the operation `tickTimers` of Machine/Environment.lean. -/

namespace Sys2Proof.Machine

/-- Fx07 LD Vx, DT (R190). -/
def execLdVxDt (x : Reg) (s : State) : Result := .next (writeV s x s.dt)

/-- Fx15 LD DT, Vx (R191). -/
def execLdDtVx (x : Reg) (s : State) : Result := .next { s with dt := readV s x }

/-- Fx18 LD ST, Vx (R192). -/
def execLdStVx (x : Reg) (s : State) : Result := .next { s with st := readV s x }

end Sys2Proof.Machine
end

