-- ==== Sys2Proof/Machine/Dispatch.lean ====
section
/-! DEFINITION. Execute (30_encoding.md R102): one arm for each instruction, one call of its meaning. -/

namespace Sys2Proof.Machine

/-- The effect of an instruction on a state in which the fetch and the advance are done: `pc` holds `a + 2` and
`opcode_reg` the word. -/
def exec (i : Instr) (s : State) : Host.Outcome State Fault Refusal :=
  match i with
  | .cls => Sys2Proof.Machine.execCls s
  | .ret => Sys2Proof.Machine.execRet s
  | .jp nnn => Sys2Proof.Machine.execJp nnn s
  | .call nnn => Sys2Proof.Machine.execCall nnn s
  | .seVxKk x kk => Sys2Proof.Machine.execSeVxKk x kk s
  | .sneVxKk x kk => Sys2Proof.Machine.execSneVxKk x kk s
  | .seVxVy x y => Sys2Proof.Machine.execSeVxVy x y s
  | .ldVxKk x kk => Sys2Proof.Machine.execLdVxKk x kk s
  | .addVxKk x kk => Sys2Proof.Machine.execAddVxKk x kk s
  | .ldVxVy x y => Sys2Proof.Machine.execLdVxVy x y s
  | .orVxVy x y => Sys2Proof.Machine.execOr x y s
  | .andVxVy x y => Sys2Proof.Machine.execAnd x y s
  | .xorVxVy x y => Sys2Proof.Machine.execXor x y s
  | .addVxVy x y => Sys2Proof.Machine.execAddVxVy x y s
  | .subVxVy x y => Sys2Proof.Machine.execSub x y s
  | .shr x _ => Sys2Proof.Machine.execShr x s
  | .subnVxVy x y => Sys2Proof.Machine.execSubn x y s
  | .shl x _ => Sys2Proof.Machine.execShl x s
  | .sneVxVy x y => Sys2Proof.Machine.execSneVxVy x y s
  | .ldI nnn => Sys2Proof.Machine.execLdI nnn s
  | .jpV0 nnn => Sys2Proof.Machine.execJpV0 nnn s
  | .rnd x kk => Sys2Proof.Machine.execRnd x kk s
  | .drw x y n => Sys2Proof.Machine.execDrw x y n s
  | .skp x => Sys2Proof.Machine.execSkp x s
  | .sknp x => Sys2Proof.Machine.execSknp x s
  | .ldVxDt x => Sys2Proof.Machine.execLdVxDt x s
  | .ldVxK x => Sys2Proof.Machine.execLdVxK x s
  | .ldDtVx x => Sys2Proof.Machine.execLdDtVx x s
  | .ldStVx x => Sys2Proof.Machine.execLdStVx x s
  | .addIVx x => Sys2Proof.Machine.execAddIVx x s
  | .ldFVx x => Sys2Proof.Machine.execLdFVx x s
  | .ldBVx x => Sys2Proof.Machine.execLdBVx x s
  | .ldMemVx x => Sys2Proof.Machine.execLdMemVx x s
  | .ldVxMem x => Sys2Proof.Machine.execLdVxMem x s

end Sys2Proof.Machine
end

