-- ==== Sys2Proof/Machine/Cycle.lean ====
section
/-! DEFINITION. The fetch-decode-execute cycle (30_encoding.md R93 to R102) and the placing of a word where the next cycle
fetches. -/

namespace Sys2Proof.Machine

/-- The word at an address, big-endian (30_encoding.md R94). -/
def fetchWord (m : Memory) (a : Nat) : Word := composeWord (m.read a) (m.read (a + 1))

/-- The highest address an instruction can be fetched from (30_encoding.md R94). -/
def lastFetch : Nat := 0xFFE

/-- The state after a completed fetch of `op` and the advance: `opcode_reg <- op`, `pc <- pc + 2` (R94, R95). -/
def fetched (op : Word) (s : State) : State := advancePc { s with opcodeReg := op }

/-- Decode and execute (R96, R102); an illegal word raises `IllegalOpcode` (R99). -/
def decodeExecute (op : Word) (s : State) : Result :=
  match decodeWord op with
  | .ok i => exec i s
  | .error _ => raise .illegalOpcode s

/-- `cycle()` (R93): nothing while halted; else fetch, advance, decode and execute. -/
def cycle (s : State) : Result :=
  if s.halted then .next s
  else if s.pc.toNat > lastFetch then .next (enterFault .fetchOutOfBounds s.pc none s)
  else
    let op := fetchWord s.mem s.pc.toNat
    decodeExecute op (fetched op s)

/-- The next operation is a cycle whatever the free sequence is. -/
def cycleIsNext (q : Schedule) : Bool :=
  match q.pending, q.onward with
  | .cycle :: _, _ => true
  | [], .repeating .cycle _ => true
  | _, _ => false

/-- The state with the instruction `op` where the next step fetches: the core not halted, the next operation a cycle, `pc`
an address that can be fetched from (kept where it is one), the bytes of `op` at `pc` (log entry 16). -/
def placeWord (s : State) (op : Word) : State :=
  let pc := if s.pc.toNat > lastFetch then BitVec.ofNat 16 Config.entry else s.pc
  let schedule := if cycleIsNext s.schedule then s.schedule else { s.schedule with pending := .cycle :: s.schedule.pending }
  { s with pc := pc, halted := false, schedule := schedule, mem := s.mem.writeBytes pc.toNat (wordBytes op) }

end Sys2Proof.Machine
end

