-- ==== Sys2Proof/Machine/Environment.lean ====
section
/-! DEFINITION. The six operations of the environment (60_exceptions.md R270) and the order they are applied in (R271). -/

namespace Sys2Proof.Machine

/-- Reset, `new()` (70_reset_and_hazards.md R290): every item of the core's state to its reset value, nothing carried over;
the environment's own inputs stay what they are (log entry 2). -/
def resetCore (s : State) : State :=
  { State.reset with schedule := s.schedule, draws := s.draws, drawCount := s.drawCount }

/-- `load(bytes)` (70_reset_and_hazards.md R292, R293). -/
def loadImage (image : List Byte) (s : State) : State :=
  if s.halted then s
  else if image.length + Config.entry > Config.memSize then enterFault .loadOutOfBounds s.pc none s
  else { s with mem := (s.mem.writeBytes fontBase fontset).writeBytes Config.entry image }

/-- A timer after one tick: decremented while nonzero (60_exceptions.md R260). -/
def decay (t : Byte) : Byte := if t.toNat > 0 then t - 1 else t

/-- `tick_timers()` (60_exceptions.md R260). -/
def tickTimers (s : State) : State := if s.halted then s else { s with dt := decay s.dt, st := decay s.st }

/-- `set_key(k, b)` (60_exceptions.md R273); it acts while halted too (R245). -/
def setKey (k : Fin 16) (pressed : Bool) (s : State) : State := { s with keys := s.keys.set k pressed }

/-- `ack_render()` (60_exceptions.md R272); it acts while halted too (R245). -/
def ackRender (s : State) : State := { s with dirty := false }

/-- One operation, atomic (00_scope.md R12). -/
def applyOp (op : HostOp) (s : State) : Result :=
  match op with
  | .reset => .next (resetCore s)
  | .load image => .next (loadImage image s)
  | .cycle => cycle s
  | .tickTimers => .next (tickTimers s)
  | .setKey k pressed => .next (setKey k pressed s)
  | .ackRender => .next (ackRender s)

/-- The next operation of the schedule and the schedule after it; none when the host requests nothing further (R271). -/
def Schedule.next (q : Schedule) : Option (HostOp × Schedule) :=
  match q.pending, q.onward with
  | op :: rest, _ => some (op, { q with pending := rest })
  | [], .stop => none
  | [], .repeating first others => some (first, { q with pending := others })
  | [], .free => some (Config.hostOp q.taken, { q with taken := q.taken + 1 })

/-- The first `n` operations of the schedule, fewer where the host requests fewer. -/
def Schedule.operations (q : Schedule) (n : Nat) : List HostOp :=
  match n with
  | 0 => []
  | n + 1 =>
    match q.next with
    | some (op, rest) => op :: rest.operations n
    | none => []

/-- The next operation of the host's schedule; a host that requests nothing further leaves the core as it is (R270, R271). -/
def nextOperation (s : State) : Result :=
  match s.schedule.next with
  | some (op, rest) => applyOp op { s with schedule := rest }
  | none => .next s

end Sys2Proof.Machine
end

