-- ==== Sys2Proof/Machine/Step.lean ====
section
/-! DEFINITION. One step of the machine: one atomic operation of the environment (00_scope.md R12, 60_exceptions.md R271). -/

namespace Sys2Proof.Machine

/-- One step: the next operation of the schedule. -/
def step (s : State) : Host.Outcome State Fault Refusal := nextOperation s

/-- The state with the table word `w` stored where `step` fetches its next instruction (log entry 16). -/
def State.withFetchWord (s : State) (nbits w : Nat) : State := placeWord s (tableWord nbits w)

end Sys2Proof.Machine
end

