-- ==== Sys2Proof/Safety.lean ====
section
/-! DEFINITION. What claims are stated in: the invariant of the core, the halted, parked and waiting states, and the launch
premises of 70_reset_and_hazards.md R304 and R305, and the shapes of effects that statements share. -/

namespace Sys2Proof.Machine

/-- The record agrees with `halted` (10_state.md R35, 60_exceptions.md R241, R242): a core that is not halted has recorded
nothing; a halted one has a cause, stands at the recorded pc, and has a recorded opcode, the one in `opcode_reg`, unless the
fetch or a load failed. -/
def FaultCoherent (s : State) : Prop :=
  if s.halted then
    s.fault.cause ≠ .noCause ∧ s.fault.faultPc = s.pc ∧
    (if s.fault.cause = .fetchOutOfBounds ∨ s.fault.cause = .loadOutOfBounds then s.fault.faultOpcode = none
     else s.fault.faultOpcode = some s.opcodeReg)
  else s.fault = FaultRecord.empty

/-- What every reachable state keeps. -/
structure CoreInv (s : State) : Prop where
  /-- MODEL'S OWN: memory has its canonical form (log entry 19) and lists addresses of `mem` only (20_memory.md R60) -/
  memCanonical : s.mem.wf
  /-- `I[15:12]` is always 0 (10_state.md R24) -/
  indexInMemory : s.i.toNat ≤ 0xFFF
  /-- every value written to `pc` is at most 0x10FE (10_state.md R26) -/
  pcBounded : s.pc.toNat ≤ 0x10FE
  /-- a return address is at most 0x1000, the address after a call at 0xFFE (40_control.md R122) -/
  stackBounded : ∀ k : Fin 16, s.stack[k].toNat ≤ 0x1000
  /-- the fault record agrees with `halted` -/
  faultCoherent : FaultCoherent s

/-- The host's next operation is `op`, and `rest` is the schedule after it (60_exceptions.md R270, R271). -/
def OperationNext (s : State) (op : HostOp) (rest : Schedule) : Prop := s.schedule.next = some (op, rest)

/-- The next operation is a cycle, and `rest` is the schedule after it. -/
def CycleNext (s : State) (rest : Schedule) : Prop := OperationNext s .cycle rest

/-- `NoFault(s)` (70_reset_and_hazards.md R305). -/
def NoFault (s : State) : Prop := s.halted = false

/-- `Parked(s)` (70_reset_and_hazards.md R304): the word at `pc` is the jump to its own address. -/
def Parked (s : State) : Prop :=
  s.halted = false ∧ s.pc.toNat ≤ 0xFFE ∧ fetchWord s.mem s.pc.toNat = 0x1000#16 ||| s.pc

/-- AwaitingKey (45_input.md R224): the cycle from `before` to `after` executed an Fx0A at `pc` with no key pressed, and the
word at `pc` is still that Fx0A. -/
def AwaitingKey (before after : State) : Prop :=
  ∃ x : Reg, before.halted = false ∧ before.pc.toNat ≤ 0xFFE ∧ lowestPressed before.keys = none ∧
    decodeWord (fetchWord before.mem before.pc.toNat) = .ok (.ldVxK x) ∧ after.pc = before.pc ∧
    fetchWord after.mem after.pc.toNat = fetchWord before.mem before.pc.toNat

/-- `CleanLaunch(image)` (70_reset_and_hazards.md R305), whatever the environment's inputs. -/
def CleanLaunch (image : List Byte) (s : State) : Prop :=
  image.length ≤ 3584 ∧
    s = { loadImage image State.reset with schedule := s.schedule, draws := s.draws, drawCount := s.drawCount }

/-- `NoInput(schedule)` (70_reset_and_hazards.md R305): no key write, however far the schedule goes. -/
def NoInput (q : Schedule) : Prop := ∀ n k pressed, HostOp.setKey k pressed ∉ q.operations n

/-- How many ticks of a list of operations fall after the `i`-th and before the `j`-th cycle, `done` cycles being over
already. -/
def ticksBetween (ops : List HostOp) (i j done : Nat) : Nat :=
  match ops with
  | [] => 0
  | .cycle :: rest => ticksBetween rest i j (done + 1)
  | .tickTimers :: rest => (if i ≤ done ∧ done < j then 1 else 0) + ticksBetween rest i j done
  | _ :: rest => ticksBetween rest i j done

/-- `Ticks(schedule, i, j) = t` (70_reset_and_hazards.md R305): the schedule has a `j`-th cycle, and exactly `t` ticks fall
between the `i`-th and it. -/
def Ticks (q : Schedule) (i j t : Nat) : Prop :=
  ∃ n, j ≤ (q.operations n).count .cycle ∧ ticksBetween (q.operations n) i j 0 = t

/-- The next step is a cycle that executes Cxkk: the one use of `rand8()` (00_scope.md R13). -/
def executesRandom (s : State) : Bool :=
  match s.schedule.next with
  | some (.cycle, _) =>
    !s.halted && decide (s.pc.toNat ≤ 0xFFE) &&
      (match decodeWord (fetchWord s.mem s.pc.toNat) with
       | .ok (.rnd _ _) => true
       | _ => false)
  | _ => false

/-- The bytes that the first `n` steps from `s` give to the cycles that execute Cxkk, in order, one for each. -/
def drawsIn (n : Nat) (s : State) : List Byte :=
  match n with
  | 0 => []
  | n + 1 =>
    (if executesRandom s then [drawByte s] else []) ++
      (match step s with
       | .next t => drawsIn n t
       | _ => [])

/-- `Draws(schedule) = d` (70_reset_and_hazards.md R305): `d` holds, place by place, the bytes given to the cycles that execute
Cxkk in the run from `s`, however long it is, and nothing where the run executes no further one. -/
def Draws (s : State) (d : Nat → Option Byte) : Prop := ∀ k b, d k = some b ↔ ∃ n, (drawsIn n s)[k]? = some b

/-! ## Shapes of effects that statements about instructions share -/

/-- The instruction completes, leaves `b` in `V[x]`, and changes nothing else: no other register, no flag but where x = F, no
timer, no byte of memory, no pixel, not `pc`. -/
def WritesRegister (i : Instr) (x : Reg) (b : Byte) (s : State) : Prop :=
  ∃ t, exec i s = .next t ∧ readV t x = b ∧ (∀ r, r ≠ x → readV t r = readV s r) ∧ t = { s with v := t.v }

/-- The instruction completes, leaves `b` in `V[x]` where x is not F, leaves `f` in VF whatever x is, and changes nothing
else (41_alu.md R141). -/
def WritesRegisterAndFlag (i : Instr) (x : Reg) (b f : Byte) (s : State) : Prop :=
  ∃ t, exec i s = .next t ∧ readV t 0xF = f ∧ (x ≠ 0xF → readV t x = b) ∧
    (∀ r, r ≠ x → r ≠ 0xF → readV t r = readV s r) ∧ t = { s with v := t.v }

/-- The instruction completes, moves `pc` on by 2 exactly if `c` holds, and changes nothing else (40_control.md R128). -/
def SkipsIf (i : Instr) (c : Prop) (s : State) : Prop :=
  ∃ t, exec i s = .next t ∧ (c → t.pc = s.pc + 2) ∧ (¬ c → t.pc = s.pc) ∧ t = { s with pc := t.pc }

/-- The state that taking the fault leaves for an instruction at `a` (60_exceptions.md R242). -/
def faultedAt (s : State) (c : Cause) (a : Word) : State :=
  { s with pc := a, halted := true, fault := { cause := c, faultPc := a, faultOpcode := some s.opcodeReg } }

/-- A set bit of the `n`-row sprite at `base`, drawn at column `x0` and row `y0`, lands on the pixel at row `r`, column `c`
(44_display.md R200, R202). -/
def SpriteHits (m : Memory) (base : Nat) (x0 y0 : Byte) (n : Nat) (r : Fin 32) (c : Fin 64) : Prop :=
  ∃ row col, row < n ∧ col < 8 ∧ r.val = (y0.toNat + row) % 32 ∧ c.val = (x0.toNat + col) % 64 ∧
    (m.read (base + row)).getLsbD (7 - col) = true

/-- The instructions that may write VF: those that write it as a flag, and those whose destination it is
(10_state.md R22). -/
def mayWriteVF (i : Instr) : Bool :=
  match i with
  | .addVxVy _ _ => true
  | .subVxVy _ _ => true
  | .shr _ _ => true
  | .subnVxVy _ _ => true
  | .shl _ _ => true
  | .drw _ _ _ => true
  | .ldVxKk x _ => x == 0xF
  | .addVxKk x _ => x == 0xF
  | .ldVxVy x _ => x == 0xF
  | .orVxVy x _ => x == 0xF
  | .andVxVy x _ => x == 0xF
  | .xorVxVy x _ => x == 0xF
  | .rnd x _ => x == 0xF
  | .ldVxDt x => x == 0xF
  | .ldVxK x => x == 0xF
  | .ldVxMem x => x == 0xF
  | .cls => false
  | .ret => false
  | .jp _ => false
  | .call _ => false
  | .seVxKk _ _ => false
  | .sneVxKk _ _ => false
  | .seVxVy _ _ => false
  | .sneVxVy _ _ => false
  | .ldI _ => false
  | .jpV0 _ => false
  | .skp _ => false
  | .sknp _ => false
  | .ldDtVx _ => false
  | .ldStVx _ => false
  | .addIVx _ => false
  | .ldFVx _ => false
  | .ldBVx _ => false
  | .ldMemVx _ => false

end Sys2Proof.Machine
end

