-- ==== Sys2Proof/Certificates/Slice0/Obligations.lean ====
section
/-! DEFINITION. The statements for the provers. Each docstring names the rules or sections of spec/ that the statement
formalises; OBLIGATIONS.json holds its words. `schedule`, `OperationNext` and `CycleNext` are the model's own form of the
operations that the host requests (60_exceptions.md R270, R271; log entry 2): the statements hold for every schedule, finite or
infinite, with the operation they name next. -/

open Sys2Proof Sys2Proof.Machine

/-- Words written out from the spec's encodings decode to the instructions they stand for. From: 30_encoding.md section 3; 95_test_vectors.md section 2. -/
def Obligations.SpecWordsDecode : Prop :=
  decodeWord 0x00E0#16 = .ok .cls ∧
  decodeWord 0x00EE#16 = .ok .ret ∧
  decodeWord 0x1234#16 = .ok (.jp 0x234#12) ∧
  decodeWord 0x2300#16 = .ok (.call 0x300#12) ∧
  decodeWord 0x3342#16 = .ok (.seVxKk 3 0x42#8) ∧
  decodeWord 0x4342#16 = .ok (.sneVxKk 3 0x42#8) ∧
  decodeWord 0x5120#16 = .ok (.seVxVy 1 2) ∧
  decodeWord 0x6A2F#16 = .ok (.ldVxKk 0xA 0x2F#8) ∧
  decodeWord 0x7101#16 = .ok (.addVxKk 1 0x01#8) ∧
  decodeWord 0x8120#16 = .ok (.ldVxVy 1 2) ∧
  decodeWord 0x8F14#16 = .ok (.addVxVy 0xF 1) ∧
  decodeWord 0x8126#16 = .ok (.shr 1 2) ∧
  decodeWord 0x81EE#16 = .ok (.shl 1 0xE) ∧
  decodeWord 0x9120#16 = .ok (.sneVxVy 1 2) ∧
  decodeWord 0xA2F0#16 = .ok (.ldI 0x2F0#12) ∧
  decodeWord 0xB300#16 = .ok (.jpV0 0x300#12) ∧
  decodeWord 0xC30F#16 = .ok (.rnd 3 0x0F#8) ∧
  decodeWord 0xD125#16 = .ok (.drw 1 2 5) ∧
  decodeWord 0xE19E#16 = .ok (.skp 1) ∧
  decodeWord 0xE1A1#16 = .ok (.sknp 1) ∧
  decodeWord 0xF507#16 = .ok (.ldVxDt 5) ∧
  decodeWord 0xF30A#16 = .ok (.ldVxK 3) ∧
  decodeWord 0xF515#16 = .ok (.ldDtVx 5) ∧
  decodeWord 0xF218#16 = .ok (.ldStVx 2) ∧
  decodeWord 0xF21E#16 = .ok (.addIVx 2) ∧
  decodeWord 0xF029#16 = .ok (.ldFVx 0) ∧
  decodeWord 0xF033#16 = .ok (.ldBVx 0) ∧
  decodeWord 0xF255#16 = .ok (.ldMemVx 2) ∧
  decodeWord 0xF265#16 = .ok (.ldVxMem 2)

/-- Decoding the encoded word of any instruction gives the instruction back. From: 30_encoding.md section 1; 30_encoding.md section 3. -/
def Obligations.DecodeEncodeRoundTrip : Prop :=
  ∀ i : Instr, decodeWord (encode i) = .ok i

/-- A word that decodes is the encoded word of what it decodes to. From: 30_encoding.md section 3; 30_encoding.md section 5. -/
def Obligations.EncodeDecodeRoundTrip : Prop :=
  ∀ (op : Word) (i : Instr), decodeWord op = .ok i → encode i = op

/-- The dispatching decoder agrees with the table of masks and matches, and no word matches two rows. From: 30_encoding.md section 3; 30_encoding.md section 5. -/
def Obligations.DecodeFollowsOpcodeTable : Prop :=
  (∀ (op : Word) (i : Instr), decodeWord op = .ok i → rowOf i ∈ opcodeTable ∧ op &&& (rowOf i).mask = (rowOf i).pattern) ∧
  (∀ (op : Word) (r : OpcodeRow), r ∈ opcodeTable → op &&& r.mask = r.pattern → ∃ i, decodeWord op = .ok i ∧ rowOf i = r)

/-- A word is an instruction exactly when its selector is one the spec lists for its primary nibble. Rules: R98. -/
def Obligations.SelectorsDecideLegality : Prop :=
  ∀ op : Word, (∃ i, decodeWord op = .ok i) ↔
    ((op.toNat / 4096 = 0x0 ∧ (op = 0x00E0#16 ∨ op = 0x00EE#16)) ∨
     ((op.toNat / 4096 = 0x5 ∨ op.toNat / 4096 = 0x9) ∧ op.toNat % 16 = 0) ∨
     (op.toNat / 4096 = 0x8 ∧ op.toNat % 16 ∈ [0, 1, 2, 3, 4, 5, 6, 7, 0xE]) ∨
     (op.toNat / 4096 = 0xE ∧ op.toNat % 256 ∈ [0x9E, 0xA1]) ∨
     (op.toNat / 4096 = 0xF ∧ op.toNat % 256 ∈ [0x07, 0x0A, 0x15, 0x18, 0x1E, 0x29, 0x33, 0x55, 0x65]) ∨
     op.toNat / 4096 ∈ [1, 2, 3, 4, 6, 7, 0xA, 0xB, 0xC, 0xD])

/-- A step whose next operation is a cycle runs the instruction its bytes decode to. From: 30_encoding.md section 2; 60_exceptions.md section 4. -/
def Obligations.StepRunsDecodedInstruction : Prop :=
  ∀ (s : State) (rest : Schedule) (i : Instr), CycleNext s rest → s.halted = false → s.pc.toNat ≤ 0xFFE →
    decodeBytes [s.mem.read s.pc.toNat, s.mem.read (s.pc.toNat + 1)] = .ok (i, []) →
    step s = exec i
      { s with
        opcodeReg := composeWord (s.mem.read s.pc.toNat) (s.mem.read (s.pc.toNat + 1))
        pc := s.pc + 2
        schedule := rest }

/-- A cycle at an illegal word takes IllegalOpcode and changes nothing else. From: 30_encoding.md section 3; 60_exceptions.md section 1; 92_eei_decisions.md D5. -/
def Obligations.IllegalWordTakesFault : Prop :=
  ∀ (s : State) (rest : Schedule), CycleNext s rest → s.halted = false → s.pc.toNat ≤ 0xFFE →
    legalWord (fetchWord s.mem s.pc.toNat) = false →
    step s = .next (faultedAt { s with opcodeReg := fetchWord s.mem s.pc.toNat, schedule := rest } .illegalOpcode s.pc)

/-- A cycle with pc above 0xFFE takes FetchOutOfBounds. From: 30_encoding.md section 2; 60_exceptions.md section 1; 92_eei_decisions.md D4, D5. -/
def Obligations.FetchAboveMemoryTakesFault : Prop :=
  ∀ (s : State) (rest : Schedule), CycleNext s rest → s.halted = false → s.pc.toNat > 0xFFE →
    step s = .next
      { s with
        halted := true
        fault := { cause := .fetchOutOfBounds, faultPc := s.pc, faultOpcode := none }
        schedule := rest }

/-- While halted, cycle, tick and load change nothing. From: 60_exceptions.md section 1; 92_eei_decisions.md D26. -/
def Obligations.HaltedOperationsChangeNothing : Prop :=
  ∀ (s : State) (op : HostOp) (rest : Schedule), s.halted = true → OperationNext s op rest →
    (op = .cycle ∨ op = .tickTimers ∨ ∃ image, op = .load image) → step s = .next { s with schedule := rest }

/-- Only reset leaves the halted state. From: 60_exceptions.md section 1; 92_eei_decisions.md D5, D26. -/
def Obligations.HaltedUntilReset : Prop :=
  ∀ s t : State, s.halted = true → (∀ rest, ¬ OperationNext s .reset rest) → step s = .next t →
    t.halted = true ∧ t = { s with keys := t.keys, dirty := t.dirty, schedule := t.schedule }

/-- A faulting cycle changes only halted, the fault record and opcode_reg. From: 60_exceptions.md section 1; 92_eei_decisions.md D5. -/
def Obligations.FaultsArePrecise : Prop :=
  ∀ (s t : State) (rest : Schedule), CycleNext s rest → s.halted = false → step s = .next t → t.halted = true →
    t = { s with halted := true, fault := t.fault, opcodeReg := t.opcodeReg, schedule := rest } ∧
    t.fault.cause ≠ .noCause ∧ t.fault.faultPc = s.pc ∧
    (s.pc.toNat > 0xFFE → t.opcodeReg = s.opcodeReg ∧ t.fault.faultOpcode = none) ∧
    (s.pc.toNat ≤ 0xFFE → t.opcodeReg = fetchWord s.mem s.pc.toNat ∧ t.fault.faultOpcode = some (fetchWord s.mem s.pc.toNat))

/-- Every step of every state answers a next state, the same one where the host requests nothing. From: 60_exceptions.md sections 1 and 4; 30_encoding.md section 5. Note: a fatal error is a next state by log entry 1; a host that requests nothing further is a form of the schedule of log entry 2. -/
def Obligations.EveryStepAnswersNext : Prop :=
  ∀ s : State, (∃ t, step s = .next t) ∧ (s.schedule.next = none → step s = .next s)

/-- Every step keeps the invariant of the core. From: 10_state.md sections 3, 4, 9; 20_memory.md section 1; 60_exceptions.md section 1. Note: the canonical form of memory is the model's own choice (log entry 19). -/
def Obligations.StepKeepsInvariant : Prop :=
  ∀ s t : State, CoreInv s → step s = .next t → CoreInv t

/-- The reset state meets the invariant. From: 10_state.md section 11. Note: the canonical form of memory is the model's own choice (log entry 19). -/
def Obligations.ResetMeetsInvariant : Prop :=
  CoreInv State.reset

/-- Reset leaves every piece of state at the value of the spec's table. From: 10_state.md section 11; 20_memory.md section 3; 92_eei_decisions.md D5, D17, D18, D27. -/
def Obligations.ResetValues : Prop :=
  (∀ x, readV State.reset x = 0x00#8) ∧ State.reset.i = 0x0000#16 ∧ State.reset.pc = 0x0200#16 ∧
  (∀ k : Fin 16, State.reset.stack[k] = 0x0000#16) ∧ State.reset.sp = 0 ∧ State.reset.dt = 0x00#8 ∧ State.reset.st = 0x00#8 ∧
  (∀ a, a < 0x050 ∨ 0x0A0 ≤ a → State.reset.mem.read a = 0x00#8) ∧ (∀ r c, getPixel State.reset.fb r c = false) ∧
  State.reset.dirty = false ∧ (∀ k : Fin 16, State.reset.keys[k] = false) ∧ State.reset.opcodeReg = 0x0000#16 ∧
  State.reset.halted = false ∧ State.reset.fault = { cause := .noCause, faultPc := 0x0000#16, faultOpcode := none }

/-- After reset the fontset stands at 0x050, five bytes a glyph. From: 20_memory.md section 3; 92_eei_decisions.md D1, D2. -/
def Obligations.FontGlyphsAtReset : Prop :=
  State.reset.mem.readBytes 0x050 80 =
    ([0xF0, 0x90, 0x90, 0x90, 0xF0, 0x20, 0x60, 0x20, 0x20, 0x70, 0xF0, 0x10, 0xF0, 0x80, 0xF0, 0xF0, 0x10, 0xF0, 0x10, 0xF0] ++
     [0x90, 0x90, 0xF0, 0x10, 0x10, 0xF0, 0x80, 0xF0, 0x10, 0xF0, 0xF0, 0x80, 0xF0, 0x90, 0xF0, 0xF0, 0x10, 0x20, 0x40, 0x40] ++
     [0xF0, 0x90, 0xF0, 0x90, 0xF0, 0xF0, 0x90, 0xF0, 0x10, 0xF0, 0xF0, 0x90, 0xF0, 0x90, 0x90, 0xE0, 0x90, 0xE0, 0x90, 0xE0] ++
     [0xF0, 0x80, 0x80, 0x80, 0xF0, 0xE0, 0x90, 0x90, 0x90, 0xE0, 0xF0, 0x80, 0xF0, 0x80, 0xF0, 0xF0, 0x80, 0xF0, 0x80, 0x80] : List Byte)

/-- RET pops the top entry into pc; on an empty stack it takes StackUnderflow. Rules: R120. -/
def Obligations.RetPopsReturnAddress : Prop :=
  ∀ (s : State) (a : Word), s.pc = a + 2 →
    (s.sp.val ≠ 0 → ∃ t, exec .ret s = .next t ∧ t.sp.val + 1 = s.sp.val ∧
      (∀ k : Fin 16, k.val = t.sp.val → t.pc = s.stack[k]) ∧ t = { s with pc := t.pc, sp := t.sp }) ∧
    (s.sp.val = 0 → ∃ t, exec .ret s = .next t ∧ t.halted = true ∧ t.fault.cause = .stackUnderflow ∧
      t = { s with pc := a, halted := t.halted, fault := t.fault })

/-- JP sets pc to its target and changes nothing else. Rules: R121. -/
def Obligations.JpSetsPc : Prop :=
  ∀ (nnn : Addr) (s : State), ∃ t, exec (.jp nnn) s = .next t ∧ t.pc.toNat = nnn.toNat ∧ t = { s with pc := t.pc }

/-- CALL pushes the following address and jumps; with 16 entries held it takes StackOverflow. Rules: R122. -/
def Obligations.CallPushesAndJumps : Prop :=
  ∀ (nnn : Addr) (s : State) (a : Word), s.pc = a + 2 →
    (s.sp.val < 16 → ∃ t, exec (.call nnn) s = .next t ∧ t.pc.toNat = nnn.toNat ∧ t.sp.val = s.sp.val + 1 ∧
      (∀ k : Fin 16, k.val = s.sp.val → t.stack[k] = a + 2) ∧ (∀ k : Fin 16, k.val ≠ s.sp.val → t.stack[k] = s.stack[k]) ∧
      t = { s with pc := t.pc, sp := t.sp, stack := t.stack }) ∧
    (s.sp.val = 16 → ∃ t, exec (.call nnn) s = .next t ∧ t.halted = true ∧ t.fault.cause = .stackOverflow ∧
      t = { s with pc := a, halted := t.halted, fault := t.fault })

/-- The records that CALL and RET leave name the instruction's address and word. From: 60_exceptions.md section 1; 92_eei_decisions.md D5, D6. -/
def Obligations.StackFaultRecords : Prop :=
  ∀ (nnn : Addr) (s : State) (a : Word), s.pc = a + 2 →
    (s.sp.val = 16 → exec (.call nnn) s = .next (faultedAt s .stackOverflow a)) ∧
    (s.sp.val = 0 → exec .ret s = .next (faultedAt s .stackUnderflow a))

/-- RET after CALL comes back to the address after the CALL with the stack as it was. From: 40_control.md section 1. -/
def Obligations.CallThenRetReturns : Prop :=
  ∀ (nnn : Addr) (s : State) (w : Word), s.sp.val < 16 →
    ∃ t u, exec (.call nnn) s = .next t ∧ exec .ret { t with pc := w } = .next u ∧ u.pc = s.pc ∧ u.sp = s.sp ∧
      (∀ k : Fin 16, k.val < s.sp.val → u.stack[k] = s.stack[k]) ∧ u.halted = s.halted

/-- JP V0 sets pc to nnn plus V0, not masked. From: 40_control.md section 1; 92_eei_decisions.md D4. -/
def Obligations.JpV0AddsOffset : Prop :=
  ∀ (nnn : Addr) (s : State), ∃ t, exec (.jpV0 nnn) s = .next t ∧ t.pc.toNat = (readV s 0).toNat + nnn.toNat ∧
    t = { s with pc := t.pc }

/-- SE and SNE with an immediate skip on equal and on not equal. Rules: R124; R125. -/
def Obligations.SkipsOnImmediate : Prop :=
  ∀ (x : Reg) (kk : Byte) (s : State),
    SkipsIf (.seVxKk x kk) (readV s x = kk) s ∧ SkipsIf (.sneVxKk x kk) (readV s x ≠ kk) s

/-- SE and SNE with two registers skip on equal and on not equal. Rules: R126; R127. -/
def Obligations.SkipsOnRegisters : Prop :=
  ∀ (x y : Reg) (s : State),
    SkipsIf (.seVxVy x y) (readV s x = readV s y) s ∧ SkipsIf (.sneVxVy x y) (readV s x ≠ readV s y) s

/-- LD Vx, kk loads kk; ADD Vx, kk adds modulo 256 without a flag. Rules: R142; R143. -/
def Obligations.ImmediateLoadAndAdd : Prop :=
  ∀ (x : Reg) (kk : Byte) (s : State),
    WritesRegister (.ldVxKk x kk) x kk s ∧
    WritesRegister (.addVxKk x kk) x (BitVec.ofNat 8 (((readV s x).toNat + kk.toNat) % 256)) s

/-- LD, OR, AND and XOR of two registers write Vx and no flag. Rules: R144; R145; R146; R147. -/
def Obligations.CopyAndLogic : Prop :=
  ∀ (x y : Reg) (s : State),
    WritesRegister (.ldVxVy x y) x (readV s y) s ∧
    WritesRegister (.orVxVy x y) x (readV s x ||| readV s y) s ∧
    WritesRegister (.andVxVy x y) x (readV s x &&& readV s y) s ∧
    WritesRegister (.xorVxVy x y) x (readV s x ^^^ readV s y) s

/-- ADD Vx, Vy leaves the sum modulo 256 and VF the carry. From: 41_alu.md sections 1 and 3; 92_eei_decisions.md D7. -/
def Obligations.AddSetsCarry : Prop :=
  ∀ (x y : Reg) (s : State),
    WritesRegisterAndFlag (.addVxVy x y) x (readV s x + readV s y)
      (if (readV s x).toNat + (readV s y).toNat > 255 then 0x01#8 else 0x00#8) s

/-- SUB and SUBN leave the difference modulo 256 and VF NOT borrow. From: 41_alu.md sections 1 and 3; 92_eei_decisions.md D7. -/
def Obligations.SubtractSetsNotBorrow : Prop :=
  ∀ (x y : Reg) (s : State),
    WritesRegisterAndFlag (.subVxVy x y) x (readV s x - readV s y)
      (if (readV s y).toNat ≤ (readV s x).toNat then 0x01#8 else 0x00#8) s ∧
    WritesRegisterAndFlag (.subnVxVy x y) x (readV s y - readV s x)
      (if (readV s x).toNat ≤ (readV s y).toNat then 0x01#8 else 0x00#8) s

/-- SHR and SHL shift Vx by one, whatever y, and VF is the bit shifted out. From: 41_alu.md sections 1 and 3; 92_eei_decisions.md D7, D13. -/
def Obligations.ShiftsSetLostBit : Prop :=
  ∀ (x y : Reg) (s : State),
    WritesRegisterAndFlag (.shr x y) x (BitVec.ofNat 8 ((readV s x).toNat / 2)) (BitVec.ofNat 8 ((readV s x).toNat % 2)) s ∧
    WritesRegisterAndFlag (.shl x y) x (BitVec.ofNat 8 ((readV s x).toNat * 2 % 256))
      (BitVec.ofNat 8 ((readV s x).toNat / 128)) s

/-- RND leaves the draw under the mask, for every byte the environment draws. From: 41_alu.md section 4; 00_scope.md section 4; 92_eei_decisions.md D15. Note: the draws are the model's own (log entry 3). -/
def Obligations.RndMasksFreshDraw : Prop :=
  ∀ (x : Reg) (kk : Byte) (s : State), ∃ t, exec (.rnd x kk) s = .next t ∧ readV t x = drawByte s &&& kk ∧
    (∀ d rest, s.draws = d :: rest → readV t x = d &&& kk ∧ t.draws = rest ∧ t.drawCount = s.drawCount) ∧
    (s.draws = [] → t.draws = [] ∧ t.drawCount = s.drawCount + 1) ∧
    (∀ r, r ≠ x → readV t r = readV s r) ∧ t = { s with v := t.v, draws := t.draws, drawCount := t.drawCount }

/-- LD I, nnn loads I; ADD I, Vx adds modulo 4096 without a flag. Rules: R170; R171. -/
def Obligations.IndexLoadAndAdd : Prop :=
  ∀ (nnn : Addr) (x : Reg) (s : State),
    (∃ t, exec (.ldI nnn) s = .next t ∧ t.i.toNat = nnn.toNat ∧ t = { s with i := t.i }) ∧
    (∃ t, exec (.addIVx x) s = .next t ∧ t.i.toNat = (s.i.toNat + (readV s x).toNat) % 4096 ∧ t = { s with i := t.i })

/-- LD F, Vx points I at the glyph of the low 4 bits of Vx. From: 42_index_memory.md section 1; 92_eei_decisions.md D1, D10. -/
def Obligations.FontAddressMasksDigit : Prop :=
  ∀ (x : Reg) (s : State), ∃ t, exec (.ldFVx x) s = .next t ∧ t.i.toNat = 0x050 + 5 * ((readV s x).toNat % 16) ∧
    t = { s with i := t.i }

/-- LD B, Vx stores hundreds, tens and ones at I, I+1, I+2. From: 42_index_memory.md section 2; 20_memory.md section 1; 92_eei_decisions.md D3. -/
def Obligations.BcdStoresDigits : Prop :=
  ∀ (x : Reg) (s : State), s.i.toNat + 2 ≤ 0xFFF →
    ∃ t, exec (.ldBVx x) s = .next t ∧ (t.mem.read s.i.toNat).toNat = (readV s x).toNat / 100 ∧
      (t.mem.read (s.i.toNat + 1)).toNat = (readV s x).toNat / 10 % 10 ∧
      (t.mem.read (s.i.toNat + 2)).toNat = (readV s x).toNat % 10 ∧
      (∀ a, a < s.i.toNat ∨ s.i.toNat + 2 < a → t.mem.read a = s.mem.read a) ∧ t = { s with mem := t.mem }

/-- LD [I], Vx stores V0..Vx at I and leaves I and every other byte alone. From: 42_index_memory.md section 2; 20_memory.md section 1; 92_eei_decisions.md D3, D14. -/
def Obligations.StoreRegistersToMemory : Prop :=
  ∀ (x : Reg) (s : State), s.i.toNat + x.val ≤ 0xFFF →
    ∃ t, exec (.ldMemVx x) s = .next t ∧ (∀ k : Reg, k ≤ x → t.mem.read (s.i.toNat + k.val) = readV s k) ∧
      (∀ a, a < s.i.toNat ∨ s.i.toNat + x.val < a → t.mem.read a = s.mem.read a) ∧ t = { s with mem := t.mem }

/-- LD Vx, [I] loads V0..Vx from I and leaves the registers above and I alone. From: 42_index_memory.md section 2; 20_memory.md section 1; 92_eei_decisions.md D3, D14. -/
def Obligations.LoadRegistersFromMemory : Prop :=
  ∀ (x : Reg) (s : State), s.i.toNat + x.val ≤ 0xFFF →
    ∃ t, exec (.ldVxMem x) s = .next t ∧ (∀ k : Reg, k ≤ x → readV t k = s.mem.read (s.i.toNat + k.val)) ∧
      (∀ k : Reg, x < k → readV t k = readV s k) ∧ t = { s with v := t.v }

/-- A data access above 0xFFF takes DataOutOfBounds before anything is written. From: 20_memory.md section 1; 42_index_memory.md section 2; 44_display.md section 2; 92_eei_decisions.md D3, D5. -/
def Obligations.DataAboveMemoryTakesFault : Prop :=
  ∀ (s : State) (a : Word), s.pc = a + 2 →
    (∀ x, s.i.toNat + 2 > 0xFFF → exec (.ldBVx x) s = .next (faultedAt s .dataOutOfBounds a)) ∧
    (∀ x : Reg, s.i.toNat + x.val > 0xFFF → exec (.ldMemVx x) s = .next (faultedAt s .dataOutOfBounds a)) ∧
    (∀ x : Reg, s.i.toNat + x.val > 0xFFF → exec (.ldVxMem x) s = .next (faultedAt s .dataOutOfBounds a)) ∧
    (∀ (x y : Reg) (n : Fin 16), n.val > 0 → s.i.toNat + n.val - 1 > 0xFFF →
      exec (.drw x y n) s = .next (faultedAt s .dataOutOfBounds a))

/-- LD Vx, [I] after LD [I], Vx brings the stored registers back. From: 42_index_memory.md section 2; 20_memory.md section 4. -/
def Obligations.StoreThenLoadRestores : Prop :=
  ∀ (x : Reg) (s : State) (w : Vector Byte 16), s.i.toNat + x.val ≤ 0xFFF →
    ∃ t u, exec (.ldMemVx x) s = .next t ∧ exec (.ldVxMem x) { t with v := w } = .next u ∧
      (∀ k : Reg, k ≤ x → readV u k = readV s k) ∧ (∀ k : Reg, x < k → readV u k = w[k]) ∧ u.mem = t.mem

/-- A word stored by LD [I], Vx is what the next cycle fetches there. From: 20_memory.md section 5; 70_reset_and_hazards.md section 4. -/
def Obligations.StoredCodeIsFetched : Prop :=
  ∀ (x j k : Reg) (s : State) (rest : Schedule) (a : Word) (i : Instr), s.i.toNat + x.val ≤ 0xFFF → s.halted = false → CycleNext s rest →
    a.toNat = s.i.toNat + j.val → k.val = j.val + 1 → k ≤ x → decodeWord (composeWord (readV s j) (readV s k)) = .ok i →
    ∃ t, exec (.ldMemVx x) s = .next t ∧
      step { t with pc := a } = exec i { t with pc := a + 2, opcodeReg := composeWord (readV s j) (readV s k), schedule := rest }

/-- LD Vx, DT reads the delay timer; LD DT, Vx and LD ST, Vx set the timers. Rules: R190; R191; R192. Note: R190 is `V[x] <- DT`, R191 `DT <- V[x]`, R192 `ST <- V[x]`. -/
def Obligations.TimerInstructions : Prop :=
  ∀ (x : Reg) (s : State),
    WritesRegister (.ldVxDt x) x s.dt s ∧
    (∃ t, exec (.ldDtVx x) s = .next t ∧ t.dt = readV s x ∧ t = { s with dt := t.dt }) ∧
    (∃ t, exec (.ldStVx x) s = .next t ∧ t.st = readV s x ∧ t = { s with st := t.st })

/-- A tick decrements each nonzero timer and touches nothing else; halted, it does nothing. From: 60_exceptions.md section 3. Note: the effect is that of R260; taking the tick off the schedule is the model's own (log entry 2). -/
def Obligations.TickDecrementsTimers : Prop :=
  ∀ (s : State) (rest : Schedule), OperationNext s .tickTimers rest →
    ∃ t, step s = .next t ∧ (s.halted = false → t.dt.toNat = s.dt.toNat - 1 ∧ t.st.toNat = s.st.toNat - 1) ∧
      (s.halted = true → t.dt = s.dt ∧ t.st = s.st) ∧ t = { s with dt := t.dt, st := t.st, schedule := rest }

/-- A cycle changes a timer only by the instruction that sets it. From: 60_exceptions.md section 3; 10_state.md section 6. -/
def Obligations.CyclesNeverDecayTimers : Prop :=
  ∀ (s t : State) (rest : Schedule), CycleNext s rest → step s = .next t →
    (t.dt ≠ s.dt → ∃ x, decodeWord (fetchWord s.mem s.pc.toNat) = .ok (.ldDtVx x) ∧ t.dt = readV s x) ∧
    (t.st ≠ s.st → ∃ x, decodeWord (fetchWord s.mem s.pc.toNat) = .ok (.ldStVx x) ∧ t.st = readV s x)

/-- CLS clears every pixel and sets dirty, whatever the framebuffer held. Rules: R201. -/
def Obligations.ClsClearsScreen : Prop :=
  ∀ s : State, ∃ t, exec .cls s = .next t ∧ (∀ r c, getPixel t.fb r c = false) ∧ t.dirty = true ∧
    t = { s with fb := t.fb, dirty := t.dirty }

/-- DRW inverts exactly the pixels a set sprite bit lands on, and VF and dirty say what happened. From: 44_display.md sections 1 and 2; 20_memory.md section 1; 92_eei_decisions.md D3, D8, D9. -/
def Obligations.DrawXorsSpritePixelwise : Prop :=
  ∀ (x y : Reg) (n : Fin 16) (s : State), n.val = 0 ∨ s.i.toNat + n.val - 1 ≤ 0xFFF →
    ∃ t, exec (.drw x y n) s = .next t ∧
      (∀ r c, getPixel t.fb r c ≠ getPixel s.fb r c ↔ SpriteHits s.mem s.i.toNat (readV s x) (readV s y) n.val r c) ∧
      (readV t 0xF = 0x00#8 ∨ readV t 0xF = 0x01#8) ∧
      (readV t 0xF = 0x01#8 ↔
        ∃ r c, SpriteHits s.mem s.i.toNat (readV s x) (readV s y) n.val r c ∧ getPixel s.fb r c = true) ∧
      (∀ k, k ≠ 0xF → readV t k = readV s k) ∧
      (t.dirty = true ↔ s.dirty = true ∨ ∃ r c, SpriteHits s.mem s.i.toNat (readV s x) (readV s y) n.val r c) ∧
      t = { s with v := t.v, fb := t.fb, dirty := t.dirty }

/-- Drawing the same sprite twice at the same position returns the framebuffer to what it was. From: 44_display.md sections 2 and 3. Note: the VF clauses are those of R202, section 2, and not the sentence of R203 (log entry 18). -/
def Obligations.DrawTwiceRestoresScreen : Prop :=
  ∀ (x y : Reg) (n : Fin 16) (s : State), n.val = 0 ∨ s.i.toNat + n.val - 1 ≤ 0xFFF →
    ∃ t u, exec (.drw x y n) s = .next t ∧ exec (.drw x y n) { t with v := s.v } = .next u ∧ u.fb = s.fb ∧
      (readV u 0xF = 0x01#8 ↔
        ∃ r c, SpriteHits s.mem s.i.toNat (readV s x) (readV s y) n.val r c ∧ getPixel s.fb r c = false) ∧
      ((∀ r c, getPixel s.fb r c = false) →
        (readV u 0xF = 0x01#8 ↔ ∃ row col, row < n.val ∧ col < 8 ∧ (s.mem.read (s.i.toNat + row)).getLsbD (7 - col) = true))

/-- The renderer's flat index of pixel (r, c) is r * 64 + c. From: 10_state.md section 8; 60_exceptions.md section 4; 92_eei_decisions.md D16. -/
def Obligations.FlatFramebufferIndex : Prop :=
  ∀ fb : Framebuffer, (flatFramebuffer fb).length = 2048 ∧
    ∀ (r : Fin 32) (c : Fin 64), (flatFramebuffer fb)[r.val * 64 + c.val]? = some (getPixel fb r c)

/-- SKP and SKNP skip on the key named by the low 4 bits of Vx and do not clear it. From: 45_input.md; 92_eei_decisions.md D10, D11. Note: the rules are R220 to R222. -/
def Obligations.KeySkips : Prop :=
  ∀ (x : Reg) (k : Fin 16) (s : State), k.val = (readV s x).toNat % 16 →
    SkipsIf (.skp x) (s.keys[k] = true) s ∧ SkipsIf (.sknp x) (s.keys[k] = false) s

/-- LD Vx, K captures the lowest pressed key, or takes pc back to itself. From: 45_input.md; 92_eei_decisions.md D12. Note: the rule is R223. -/
def Obligations.KeyWaitCapturesLowestKey : Prop :=
  ∀ (x : Reg) (s : State),
    (∀ k : Fin 16, s.keys[k] = true → (∀ j : Fin 16, j < k → s.keys[j] = false) →
      WritesRegister (.ldVxK x) x (BitVec.ofNat 8 k.val) s) ∧
    ((∀ k : Fin 16, s.keys[k] = false) → ∃ t, exec (.ldVxK x) s = .next t ∧ t.pc + 2 = s.pc ∧ t = { s with pc := t.pc })

/-- While no key is pressed a cycle at Fx0A changes nothing but opcode_reg. From: 45_input.md. Note: the rules are R223 and R224, the latter marked derived in the spec. -/
def Obligations.KeyWaitSpins : Prop :=
  ∀ (s : State) (rest : Schedule) (x : Reg), CycleNext s rest → s.halted = false → s.pc.toNat ≤ 0xFFE →
    decodeWord (fetchWord s.mem s.pc.toNat) = .ok (.ldVxK x) → (∀ k : Fin 16, s.keys[k] = false) →
    ∃ t, step s = .next t ∧ t = { s with opcodeReg := fetchWord s.mem s.pc.toNat, schedule := rest } ∧ AwaitingKey s t

/-- A cycle writes memory only by Fx33 and Fx55, pixels only by CLS and DRW, and never the keys. From: 20_memory.md section 2; 10_state.md sections 7 and 8. -/
def Obligations.OnlyStoresAndDrawsWriteOut : Prop :=
  ∀ (s t : State) (rest : Schedule), CycleNext s rest → step s = .next t →
    t.keys = s.keys ∧ (s.dirty = true → t.dirty = true) ∧
    (t.mem ≠ s.mem → ∃ x, decodeWord (fetchWord s.mem s.pc.toNat) = .ok (.ldBVx x) ∨ decodeWord (fetchWord s.mem s.pc.toNat) = .ok (.ldMemVx x)) ∧
    (t.fb ≠ s.fb → decodeWord (fetchWord s.mem s.pc.toNat) = .ok .cls ∨ ∃ x y n, decodeWord (fetchWord s.mem s.pc.toNat) = .ok (.drw x y n))

/-- A cycle writes I only by Annn, Fx1E and Fx29, and the stack only by CALL and RET. From: 10_state.md sections 3 and 5. -/
def Obligations.OnlyNamedInstructionsWriteIndexAndStack : Prop :=
  ∀ (s t : State) (rest : Schedule), CycleNext s rest → step s = .next t →
    (t.i ≠ s.i → (∃ nnn, decodeWord (fetchWord s.mem s.pc.toNat) = .ok (.ldI nnn)) ∨ (∃ x, decodeWord (fetchWord s.mem s.pc.toNat) = .ok (.addIVx x)) ∨
      ∃ x, decodeWord (fetchWord s.mem s.pc.toNat) = .ok (.ldFVx x)) ∧
    (t.sp ≠ s.sp → (∃ nnn, decodeWord (fetchWord s.mem s.pc.toNat) = .ok (.call nnn)) ∨ decodeWord (fetchWord s.mem s.pc.toNat) = .ok .ret) ∧
    (t.stack ≠ s.stack → ∃ nnn, decodeWord (fetchWord s.mem s.pc.toNat) = .ok (.call nnn))

/-- A cycle changes VF only by an instruction the spec lists as a writer of VF. From: 10_state.md section 2. -/
def Obligations.OnlyFlagWritersChangeVF : Prop :=
  ∀ (s t : State) (rest : Schedule), CycleNext s rest → step s = .next t → readV t 0xF ≠ readV s 0xF →
    ∃ i, decodeWord (fetchWord s.mem s.pc.toNat) = .ok i ∧ mayWriteVF i = true

/-- Given the same draw, no cycle depends on ST, dirty or opcode_reg. From: 10_state.md sections 6, 8 and 9. Note: both cycles are given the same draw, because the two states have the same pending draws and draw counter, the model's own (log entry 3); R13 does not say that two runs draw the same byte, so the premise is part of the claim. -/
def Obligations.OutputsAreNotReadBack : Prop :=
  ∀ (s t : State) (rest : Schedule) (st : Byte) (dirty : Bool) (op : Word), CycleNext s rest → step s = .next t →
    ∃ u, step { s with st := st, dirty := dirty, opcodeReg := op } = .next u ∧
      u = { t with st := u.st, dirty := u.dirty, opcodeReg := u.opcodeReg }

/-- A parked core stays parked under cycles, ticks, key writes and acknowledgements. From: 70_reset_and_hazards.md section 6; 92_eei_decisions.md D32. -/
def Obligations.ParkedStaysParked : Prop :=
  ∀ s t : State, Parked s → (∀ rest, ¬ OperationNext s .reset rest) → (∀ image rest, ¬ OperationNext s (.load image) rest) →
    step s = .next t →
    Parked t ∧ t.v = s.v ∧ t.i = s.i ∧ t.pc = s.pc ∧ t.stack = s.stack ∧ t.sp = s.sp ∧ t.mem = s.mem ∧ t.fb = s.fb ∧
      (t.opcodeReg = s.opcodeReg ∨ t.opcodeReg = 0x1000#16 ||| s.pc)

/-- A load that fits re-installs the fontset, copies the image to 0x200 and changes nothing else. From: 70_reset_and_hazards.md section 2; 92_eei_decisions.md D19. -/
def Obligations.LoadPlacesImage : Prop :=
  ∀ (s : State) (image : List Byte) (rest : Schedule), OperationNext s (.load image) rest → s.halted = false →
    image.length ≤ 3584 →
    ∃ t, step s = .next t ∧ (∀ k (h : k < image.length), t.mem.read (0x200 + k) = image[k]) ∧
      (∀ k, k < 80 → t.mem.read (0x050 + k) = State.reset.mem.read (0x050 + k)) ∧
      (∀ a, a < 0x050 ∨ (0x0A0 ≤ a ∧ a < 0x200) ∨ 0x200 + image.length ≤ a → t.mem.read a = s.mem.read a) ∧
      t = { s with mem := t.mem, schedule := rest }

/-- A load of more than 3584 bytes writes nothing and takes LoadOutOfBounds. From: 70_reset_and_hazards.md section 2; 60_exceptions.md section 1; 92_eei_decisions.md D19. -/
def Obligations.OversizedLoadTakesFault : Prop :=
  ∀ (s : State) (image : List Byte) (rest : Schedule), OperationNext s (.load image) rest → s.halted = false →
    image.length > 3584 →
    step s = .next
      { s with
        halted := true
        fault := { cause := .loadOutOfBounds, faultPc := s.pc, faultOpcode := none }
        schedule := rest }

/-- A reset sets every item of the core's state to its reset value, from any state. From: 70_reset_and_hazards.md section 1; 92_eei_decisions.md D30. -/
def Obligations.ResetOperationResetsCore : Prop :=
  ∀ (s : State) (rest : Schedule), OperationNext s .reset rest →
    step s = .next { State.reset with schedule := rest, draws := s.draws, drawCount := s.drawCount }

/-- set_key writes one key and ack_render clears dirty, halted or not. From: 60_exceptions.md section 4; 92_eei_decisions.md D18, D26. -/
def Obligations.KeyWritesAndAcknowledgements : Prop :=
  ∀ (s : State) (k : Fin 16) (pressed : Bool) (rest : Schedule),
    (OperationNext s (.setKey k pressed) rest → ∃ t, step s = .next t ∧ t.keys[k] = pressed ∧
      (∀ j : Fin 16, j ≠ k → t.keys[j] = s.keys[j]) ∧ t = { s with keys := t.keys, schedule := rest }) ∧
    (OperationNext s .ackRender rest → step s = .next { s with dirty := false, schedule := rest })

/-- After a clean launch the first cycle runs the first word of the image. From: 70_reset_and_hazards.md sections 1, 2 and 6. -/
def Obligations.LaunchFetchesImageHead : Prop :=
  ∀ (image : List Byte) (s : State) (rest : Schedule) (i : Instr) (h : 2 ≤ image.length), CleanLaunch image s → CycleNext s rest →
    decodeWord (composeWord image[0] image[1]) = .ok i →
    NoFault s ∧ step s = exec i { s with pc := 0x202#16, opcodeReg := composeWord image[0] image[1], schedule := rest }

/-- The word withFetchWord places is the one the next step runs. From: 30_encoding.md section 2; 20_memory.md section 2. Note: placing a word is the model's own (log entry 16). -/
def Obligations.PlacedWordRunsNext : Prop :=
  ∀ (s : State) (i : Instr), ∃ rest, CycleNext (s.withFetchWord 16 (encode i).toNat) rest ∧
    step (s.withFetchWord 16 (encode i).toNat) = exec i
      { s.withFetchWord 16 (encode i).toNat with
        opcodeReg := encode i
        pc := (s.withFetchWord 16 (encode i).toNat).pc + 2
        schedule := rest }

/-- A step takes one draw exactly if it is a cycle that executes Cxkk. From: 00_scope.md section 4; 60_exceptions.md section 4; 92_eei_decisions.md D15. Note: the draws are the model's own (log entry 3). -/
def Obligations.OnlyExecutionsOfRndTakeADraw : Prop :=
  ∀ s t : State, step s = .next t →
    (executesRandom s = true → ∃ x kk, decodeWord (fetchWord s.mem s.pc.toNat) = .ok (.rnd x kk) ∧ readV t x = drawByte s &&& kk ∧
      t.draws = s.draws.tail ∧ t.drawCount = (if s.draws = [] then s.drawCount + 1 else s.drawCount)) ∧
    (executesRandom s = false → t.draws = s.draws ∧ t.drawCount = s.drawCount)
end

