-- ==== Sys2Proof/Laws/Decode.lean ====
section
/-! SUPPORT. The fields of a word put together from its parts (30_encoding.md R91): what decoding an encoded word needs. -/

namespace Sys2Proof

/-- Bits above the low part of an append come from the high part. -/
theorem extractLsb'_append_above {a b : Nat} (p : BitVec a) (q : BitVec b) (k n : Nat) :
    (p ++ q).extractLsb' (b + k) n = p.extractLsb' k n := by
  apply BitVec.eq_of_getLsbD_eq; intro i hi
  simp [BitVec.getLsbD_append, hi, show ¬ b + k + i < b by omega, show b + k + i - b = k + i by omega]

/-- Bits inside the low part of an append come from it. -/
theorem extractLsb'_append_inside {a b : Nat} (p : BitVec a) (q : BitVec b) (k n : Nat) (h : k + n ≤ b) :
    (p ++ q).extractLsb' k n = q.extractLsb' k n := by
  apply BitVec.eq_of_getLsbD_eq; intro i hi
  simp [BitVec.getLsbD_append, hi, show k + i < b by omega]

theorem extractLsb'_whole {a : Nat} (p : BitVec a) : p.extractLsb' 0 a = p := by
  apply BitVec.eq_of_getLsbD_eq; intro i hi
  simp [hi]

/-! ## A word with an address: `p nnn` -/

@[simp] theorem fieldPrimary_addr (p : BitVec 4) (nnn : Addr) : fieldPrimary (p ++ nnn) = p :=
  (extractLsb'_append_above p nnn 0 4).trans (extractLsb'_whole p)

@[simp] theorem fieldNnn_addr (p : BitVec 4) (nnn : Addr) : fieldNnn (p ++ nnn) = nnn :=
  (extractLsb'_append_inside p nnn 0 12 (by omega)).trans (extractLsb'_whole nnn)

/-! ## A word with a register and a byte: `p x kk` -/

@[simp] theorem fieldPrimary_byte (p x : BitVec 4) (kk : Byte) : fieldPrimary (p ++ x ++ kk) = p :=
  (extractLsb'_append_above (p ++ x) kk 4 4).trans
    ((extractLsb'_append_above p x 0 4).trans (extractLsb'_whole p))

@[simp] theorem fieldX_byte (p : BitVec 4) (x : Fin 16) (kk : Byte) : fieldX (p ++ nib x ++ kk) = x :=
  congrArg BitVec.toFin ((extractLsb'_append_above (p ++ nib x) kk 0 4).trans
    ((extractLsb'_append_inside p (nib x) 0 4 (by omega)).trans (extractLsb'_whole (nib x))))

@[simp] theorem fieldKk_byte (p x : BitVec 4) (kk : Byte) : fieldKk (p ++ x ++ kk) = kk :=
  (extractLsb'_append_inside (p ++ x) kk 0 8 (by omega)).trans (extractLsb'_whole kk)

/-! ## A word of four nibbles: `p x y n` -/

@[simp] theorem fieldPrimary_nibbles (p x y n : BitVec 4) : fieldPrimary (p ++ x ++ y ++ n) = p :=
  (extractLsb'_append_above (p ++ x ++ y) n 8 4).trans ((extractLsb'_append_above (p ++ x) y 4 4).trans
    ((extractLsb'_append_above p x 0 4).trans (extractLsb'_whole p)))

@[simp] theorem fieldX_nibbles (p y n : BitVec 4) (x : Fin 16) : fieldX (p ++ nib x ++ y ++ n) = x :=
  congrArg BitVec.toFin ((extractLsb'_append_above (p ++ nib x ++ y) n 4 4).trans
    ((extractLsb'_append_above (p ++ nib x) y 0 4).trans
      ((extractLsb'_append_inside p (nib x) 0 4 (by omega)).trans (extractLsb'_whole (nib x)))))

@[simp] theorem fieldY_nibbles (p x n : BitVec 4) (y : Fin 16) : fieldY (p ++ x ++ nib y ++ n) = y :=
  congrArg BitVec.toFin ((extractLsb'_append_above (p ++ x ++ nib y) n 0 4).trans
    ((extractLsb'_append_inside (p ++ x) (nib y) 0 4 (by omega)).trans (extractLsb'_whole (nib y))))

@[simp] theorem fieldN_nibbles (p x y n : BitVec 4) : fieldN (p ++ x ++ y ++ n) = n.toFin :=
  congrArg BitVec.toFin ((extractLsb'_append_inside (p ++ x ++ y) n 0 4 (by omega)).trans (extractLsb'_whole n))

/-! ## A word is its fields -/

theorem append_extractLsb' (op : Word) (k : Nat) :
    op.extractLsb' k (16 - k) ++ op.extractLsb' 0 k = op.extractLsb' 0 (16 - k + k) := by
  apply BitVec.eq_of_getLsbD_eq; intro i hi
  simp only [BitVec.getLsbD_append, BitVec.getLsbD_extractLsb']
  by_cases h : i < k
  · simp [h, show i < 16 - k + k by omega]
  · simp [h, show i < 16 - k + k by omega, show i - k < 16 - k by omega, show k + (i - k) = i by omega]

theorem word_eq_addr (op : Word) : fieldPrimary op ++ fieldNnn op = op :=
  (append_extractLsb' op 12).trans (extractLsb'_whole op)

/-! ## The two bytes of a word (20_memory.md R63) -/

/-- A word composed from its own bytes is the word. -/
theorem composeWord_wordBytes (op : Word) : composeWord (op.extractLsb' 8 8) (op.extractLsb' 0 8) = op :=
  (append_extractLsb' op 8).trans (extractLsb'_whole op)

/-- The high byte of a composed word, and its low byte. -/
theorem composeWord_high (high low : Byte) : (composeWord high low).extractLsb' 8 8 = high :=
  (extractLsb'_append_above high low 0 8).trans (extractLsb'_whole high)

theorem composeWord_low (high low : Byte) : (composeWord high low).extractLsb' 0 8 = low :=
  (extractLsb'_append_inside high low 0 8 (by omega)).trans (extractLsb'_whole low)

theorem wordBytes_composeWord (high low : Byte) : wordBytes (composeWord high low) = [high, low] := by
  simp only [wordBytes, composeWord_high, composeWord_low]

end Sys2Proof
end

