-- ==== Sys2Proof/Laws/State.lean ====
section
/-! SUPPORT. One lemma for each field of State and each named update of it, so that no proof unfolds an update. -/

namespace Sys2Proof.Machine

@[simp] theorem writeV_v (s : State) (x : Reg) (b : Byte) : (writeV s x b).v = s.v.set x b := rfl
@[simp] theorem writeV_i (s : State) (x : Reg) (b : Byte) : (writeV s x b).i = s.i := rfl
@[simp] theorem writeV_pc (s : State) (x : Reg) (b : Byte) : (writeV s x b).pc = s.pc := rfl
@[simp] theorem writeV_stack (s : State) (x : Reg) (b : Byte) : (writeV s x b).stack = s.stack := rfl
@[simp] theorem writeV_sp (s : State) (x : Reg) (b : Byte) : (writeV s x b).sp = s.sp := rfl
@[simp] theorem writeV_dt (s : State) (x : Reg) (b : Byte) : (writeV s x b).dt = s.dt := rfl
@[simp] theorem writeV_st (s : State) (x : Reg) (b : Byte) : (writeV s x b).st = s.st := rfl
@[simp] theorem writeV_mem (s : State) (x : Reg) (b : Byte) : (writeV s x b).mem = s.mem := rfl
@[simp] theorem writeV_fb (s : State) (x : Reg) (b : Byte) : (writeV s x b).fb = s.fb := rfl
@[simp] theorem writeV_dirty (s : State) (x : Reg) (b : Byte) : (writeV s x b).dirty = s.dirty := rfl
@[simp] theorem writeV_keys (s : State) (x : Reg) (b : Byte) : (writeV s x b).keys = s.keys := rfl
@[simp] theorem writeV_opcodeReg (s : State) (x : Reg) (b : Byte) : (writeV s x b).opcodeReg = s.opcodeReg := rfl
@[simp] theorem writeV_halted (s : State) (x : Reg) (b : Byte) : (writeV s x b).halted = s.halted := rfl
@[simp] theorem writeV_fault (s : State) (x : Reg) (b : Byte) : (writeV s x b).fault = s.fault := rfl
@[simp] theorem writeV_schedule (s : State) (x : Reg) (b : Byte) : (writeV s x b).schedule = s.schedule := rfl
@[simp] theorem writeV_draws (s : State) (x : Reg) (b : Byte) : (writeV s x b).draws = s.draws := rfl
@[simp] theorem writeV_drawCount (s : State) (x : Reg) (b : Byte) : (writeV s x b).drawCount = s.drawCount := rfl

@[simp] theorem advancePc_v (s : State) : (advancePc s).v = s.v := rfl
@[simp] theorem advancePc_i (s : State) : (advancePc s).i = s.i := rfl
@[simp] theorem advancePc_pc (s : State) : (advancePc s).pc = s.pc + 2 := rfl
@[simp] theorem advancePc_stack (s : State) : (advancePc s).stack = s.stack := rfl
@[simp] theorem advancePc_sp (s : State) : (advancePc s).sp = s.sp := rfl
@[simp] theorem advancePc_dt (s : State) : (advancePc s).dt = s.dt := rfl
@[simp] theorem advancePc_st (s : State) : (advancePc s).st = s.st := rfl
@[simp] theorem advancePc_mem (s : State) : (advancePc s).mem = s.mem := rfl
@[simp] theorem advancePc_fb (s : State) : (advancePc s).fb = s.fb := rfl
@[simp] theorem advancePc_dirty (s : State) : (advancePc s).dirty = s.dirty := rfl
@[simp] theorem advancePc_keys (s : State) : (advancePc s).keys = s.keys := rfl
@[simp] theorem advancePc_opcodeReg (s : State) : (advancePc s).opcodeReg = s.opcodeReg := rfl
@[simp] theorem advancePc_halted (s : State) : (advancePc s).halted = s.halted := rfl
@[simp] theorem advancePc_fault (s : State) : (advancePc s).fault = s.fault := rfl
@[simp] theorem advancePc_schedule (s : State) : (advancePc s).schedule = s.schedule := rfl
@[simp] theorem advancePc_draws (s : State) : (advancePc s).draws = s.draws := rfl
@[simp] theorem advancePc_drawCount (s : State) : (advancePc s).drawCount = s.drawCount := rfl

@[simp] theorem enterFault_v (c : Cause) (a : Word) (op : Option Word) (s : State) : (enterFault c a op s).v = s.v := rfl
@[simp] theorem enterFault_i (c : Cause) (a : Word) (op : Option Word) (s : State) : (enterFault c a op s).i = s.i := rfl
@[simp] theorem enterFault_pc (c : Cause) (a : Word) (op : Option Word) (s : State) : (enterFault c a op s).pc = a := rfl
@[simp] theorem enterFault_stack (c : Cause) (a : Word) (op : Option Word) (s : State) : (enterFault c a op s).stack = s.stack := rfl
@[simp] theorem enterFault_sp (c : Cause) (a : Word) (op : Option Word) (s : State) : (enterFault c a op s).sp = s.sp := rfl
@[simp] theorem enterFault_dt (c : Cause) (a : Word) (op : Option Word) (s : State) : (enterFault c a op s).dt = s.dt := rfl
@[simp] theorem enterFault_st (c : Cause) (a : Word) (op : Option Word) (s : State) : (enterFault c a op s).st = s.st := rfl
@[simp] theorem enterFault_mem (c : Cause) (a : Word) (op : Option Word) (s : State) : (enterFault c a op s).mem = s.mem := rfl
@[simp] theorem enterFault_fb (c : Cause) (a : Word) (op : Option Word) (s : State) : (enterFault c a op s).fb = s.fb := rfl
@[simp] theorem enterFault_dirty (c : Cause) (a : Word) (op : Option Word) (s : State) : (enterFault c a op s).dirty = s.dirty := rfl
@[simp] theorem enterFault_keys (c : Cause) (a : Word) (op : Option Word) (s : State) : (enterFault c a op s).keys = s.keys := rfl
@[simp] theorem enterFault_opcodeReg (c : Cause) (a : Word) (op : Option Word) (s : State) : (enterFault c a op s).opcodeReg = s.opcodeReg := rfl
@[simp] theorem enterFault_halted (c : Cause) (a : Word) (op : Option Word) (s : State) : (enterFault c a op s).halted = true := rfl
@[simp] theorem enterFault_fault (c : Cause) (a : Word) (op : Option Word) (s : State) : (enterFault c a op s).fault = ⟨c, a, op⟩ := rfl
@[simp] theorem enterFault_schedule (c : Cause) (a : Word) (op : Option Word) (s : State) : (enterFault c a op s).schedule = s.schedule := rfl
@[simp] theorem enterFault_draws (c : Cause) (a : Word) (op : Option Word) (s : State) : (enterFault c a op s).draws = s.draws := rfl
@[simp] theorem enterFault_drawCount (c : Cause) (a : Word) (op : Option Word) (s : State) : (enterFault c a op s).drawCount = s.drawCount := rfl

@[simp] theorem fetched_v (op : Word) (s : State) : (fetched op s).v = s.v := rfl
@[simp] theorem fetched_i (op : Word) (s : State) : (fetched op s).i = s.i := rfl
@[simp] theorem fetched_pc (op : Word) (s : State) : (fetched op s).pc = s.pc + 2 := rfl
@[simp] theorem fetched_stack (op : Word) (s : State) : (fetched op s).stack = s.stack := rfl
@[simp] theorem fetched_sp (op : Word) (s : State) : (fetched op s).sp = s.sp := rfl
@[simp] theorem fetched_dt (op : Word) (s : State) : (fetched op s).dt = s.dt := rfl
@[simp] theorem fetched_st (op : Word) (s : State) : (fetched op s).st = s.st := rfl
@[simp] theorem fetched_mem (op : Word) (s : State) : (fetched op s).mem = s.mem := rfl
@[simp] theorem fetched_fb (op : Word) (s : State) : (fetched op s).fb = s.fb := rfl
@[simp] theorem fetched_dirty (op : Word) (s : State) : (fetched op s).dirty = s.dirty := rfl
@[simp] theorem fetched_keys (op : Word) (s : State) : (fetched op s).keys = s.keys := rfl
@[simp] theorem fetched_opcodeReg (op : Word) (s : State) : (fetched op s).opcodeReg = op := rfl
@[simp] theorem fetched_halted (op : Word) (s : State) : (fetched op s).halted = s.halted := rfl
@[simp] theorem fetched_fault (op : Word) (s : State) : (fetched op s).fault = s.fault := rfl
@[simp] theorem fetched_schedule (op : Word) (s : State) : (fetched op s).schedule = s.schedule := rfl
@[simp] theorem fetched_draws (op : Word) (s : State) : (fetched op s).draws = s.draws := rfl
@[simp] theorem fetched_drawCount (op : Word) (s : State) : (fetched op s).drawCount = s.drawCount := rfl

@[simp] theorem setKey_v (k : Fin 16) (pressed : Bool) (s : State) : (setKey k pressed s).v = s.v := rfl
@[simp] theorem setKey_i (k : Fin 16) (pressed : Bool) (s : State) : (setKey k pressed s).i = s.i := rfl
@[simp] theorem setKey_pc (k : Fin 16) (pressed : Bool) (s : State) : (setKey k pressed s).pc = s.pc := rfl
@[simp] theorem setKey_stack (k : Fin 16) (pressed : Bool) (s : State) : (setKey k pressed s).stack = s.stack := rfl
@[simp] theorem setKey_sp (k : Fin 16) (pressed : Bool) (s : State) : (setKey k pressed s).sp = s.sp := rfl
@[simp] theorem setKey_dt (k : Fin 16) (pressed : Bool) (s : State) : (setKey k pressed s).dt = s.dt := rfl
@[simp] theorem setKey_st (k : Fin 16) (pressed : Bool) (s : State) : (setKey k pressed s).st = s.st := rfl
@[simp] theorem setKey_mem (k : Fin 16) (pressed : Bool) (s : State) : (setKey k pressed s).mem = s.mem := rfl
@[simp] theorem setKey_fb (k : Fin 16) (pressed : Bool) (s : State) : (setKey k pressed s).fb = s.fb := rfl
@[simp] theorem setKey_dirty (k : Fin 16) (pressed : Bool) (s : State) : (setKey k pressed s).dirty = s.dirty := rfl
@[simp] theorem setKey_keys (k : Fin 16) (pressed : Bool) (s : State) : (setKey k pressed s).keys = s.keys.set k pressed := rfl
@[simp] theorem setKey_opcodeReg (k : Fin 16) (pressed : Bool) (s : State) : (setKey k pressed s).opcodeReg = s.opcodeReg := rfl
@[simp] theorem setKey_halted (k : Fin 16) (pressed : Bool) (s : State) : (setKey k pressed s).halted = s.halted := rfl
@[simp] theorem setKey_fault (k : Fin 16) (pressed : Bool) (s : State) : (setKey k pressed s).fault = s.fault := rfl
@[simp] theorem setKey_schedule (k : Fin 16) (pressed : Bool) (s : State) : (setKey k pressed s).schedule = s.schedule := rfl
@[simp] theorem setKey_draws (k : Fin 16) (pressed : Bool) (s : State) : (setKey k pressed s).draws = s.draws := rfl
@[simp] theorem setKey_drawCount (k : Fin 16) (pressed : Bool) (s : State) : (setKey k pressed s).drawCount = s.drawCount := rfl

@[simp] theorem ackRender_v (s : State) : (ackRender s).v = s.v := rfl
@[simp] theorem ackRender_i (s : State) : (ackRender s).i = s.i := rfl
@[simp] theorem ackRender_pc (s : State) : (ackRender s).pc = s.pc := rfl
@[simp] theorem ackRender_stack (s : State) : (ackRender s).stack = s.stack := rfl
@[simp] theorem ackRender_sp (s : State) : (ackRender s).sp = s.sp := rfl
@[simp] theorem ackRender_dt (s : State) : (ackRender s).dt = s.dt := rfl
@[simp] theorem ackRender_st (s : State) : (ackRender s).st = s.st := rfl
@[simp] theorem ackRender_mem (s : State) : (ackRender s).mem = s.mem := rfl
@[simp] theorem ackRender_fb (s : State) : (ackRender s).fb = s.fb := rfl
@[simp] theorem ackRender_dirty (s : State) : (ackRender s).dirty = false := rfl
@[simp] theorem ackRender_keys (s : State) : (ackRender s).keys = s.keys := rfl
@[simp] theorem ackRender_opcodeReg (s : State) : (ackRender s).opcodeReg = s.opcodeReg := rfl
@[simp] theorem ackRender_halted (s : State) : (ackRender s).halted = s.halted := rfl
@[simp] theorem ackRender_fault (s : State) : (ackRender s).fault = s.fault := rfl
@[simp] theorem ackRender_schedule (s : State) : (ackRender s).schedule = s.schedule := rfl
@[simp] theorem ackRender_draws (s : State) : (ackRender s).draws = s.draws := rfl
@[simp] theorem ackRender_drawCount (s : State) : (ackRender s).drawCount = s.drawCount := rfl

@[simp] theorem writeResultFlag_v (s : State) (x : Reg) (rf : Byte × Bool) : (writeResultFlag s x rf).v = (s.v.set x rf.1).set regF (flagByte rf.2) := rfl
@[simp] theorem writeResultFlag_i (s : State) (x : Reg) (rf : Byte × Bool) : (writeResultFlag s x rf).i = s.i := rfl
@[simp] theorem writeResultFlag_pc (s : State) (x : Reg) (rf : Byte × Bool) : (writeResultFlag s x rf).pc = s.pc := rfl
@[simp] theorem writeResultFlag_stack (s : State) (x : Reg) (rf : Byte × Bool) : (writeResultFlag s x rf).stack = s.stack := rfl
@[simp] theorem writeResultFlag_sp (s : State) (x : Reg) (rf : Byte × Bool) : (writeResultFlag s x rf).sp = s.sp := rfl
@[simp] theorem writeResultFlag_dt (s : State) (x : Reg) (rf : Byte × Bool) : (writeResultFlag s x rf).dt = s.dt := rfl
@[simp] theorem writeResultFlag_st (s : State) (x : Reg) (rf : Byte × Bool) : (writeResultFlag s x rf).st = s.st := rfl
@[simp] theorem writeResultFlag_mem (s : State) (x : Reg) (rf : Byte × Bool) : (writeResultFlag s x rf).mem = s.mem := rfl
@[simp] theorem writeResultFlag_fb (s : State) (x : Reg) (rf : Byte × Bool) : (writeResultFlag s x rf).fb = s.fb := rfl
@[simp] theorem writeResultFlag_dirty (s : State) (x : Reg) (rf : Byte × Bool) : (writeResultFlag s x rf).dirty = s.dirty := rfl
@[simp] theorem writeResultFlag_keys (s : State) (x : Reg) (rf : Byte × Bool) : (writeResultFlag s x rf).keys = s.keys := rfl
@[simp] theorem writeResultFlag_opcodeReg (s : State) (x : Reg) (rf : Byte × Bool) : (writeResultFlag s x rf).opcodeReg = s.opcodeReg := rfl
@[simp] theorem writeResultFlag_halted (s : State) (x : Reg) (rf : Byte × Bool) : (writeResultFlag s x rf).halted = s.halted := rfl
@[simp] theorem writeResultFlag_fault (s : State) (x : Reg) (rf : Byte × Bool) : (writeResultFlag s x rf).fault = s.fault := rfl
@[simp] theorem writeResultFlag_schedule (s : State) (x : Reg) (rf : Byte × Bool) : (writeResultFlag s x rf).schedule = s.schedule := rfl
@[simp] theorem writeResultFlag_draws (s : State) (x : Reg) (rf : Byte × Bool) : (writeResultFlag s x rf).draws = s.draws := rfl
@[simp] theorem writeResultFlag_drawCount (s : State) (x : Reg) (rf : Byte × Bool) : (writeResultFlag s x rf).drawCount = s.drawCount := rfl

@[simp] theorem skipIf_v (c : Bool) (s : State) : (skipIf c s).v = s.v := by cases c <;> rfl
@[simp] theorem skipIf_i (c : Bool) (s : State) : (skipIf c s).i = s.i := by cases c <;> rfl
@[simp] theorem skipIf_pc (c : Bool) (s : State) : (skipIf c s).pc = if c then s.pc + 2 else s.pc := by cases c <;> rfl
@[simp] theorem skipIf_stack (c : Bool) (s : State) : (skipIf c s).stack = s.stack := by cases c <;> rfl
@[simp] theorem skipIf_sp (c : Bool) (s : State) : (skipIf c s).sp = s.sp := by cases c <;> rfl
@[simp] theorem skipIf_dt (c : Bool) (s : State) : (skipIf c s).dt = s.dt := by cases c <;> rfl
@[simp] theorem skipIf_st (c : Bool) (s : State) : (skipIf c s).st = s.st := by cases c <;> rfl
@[simp] theorem skipIf_mem (c : Bool) (s : State) : (skipIf c s).mem = s.mem := by cases c <;> rfl
@[simp] theorem skipIf_fb (c : Bool) (s : State) : (skipIf c s).fb = s.fb := by cases c <;> rfl
@[simp] theorem skipIf_dirty (c : Bool) (s : State) : (skipIf c s).dirty = s.dirty := by cases c <;> rfl
@[simp] theorem skipIf_keys (c : Bool) (s : State) : (skipIf c s).keys = s.keys := by cases c <;> rfl
@[simp] theorem skipIf_opcodeReg (c : Bool) (s : State) : (skipIf c s).opcodeReg = s.opcodeReg := by cases c <;> rfl
@[simp] theorem skipIf_halted (c : Bool) (s : State) : (skipIf c s).halted = s.halted := by cases c <;> rfl
@[simp] theorem skipIf_fault (c : Bool) (s : State) : (skipIf c s).fault = s.fault := by cases c <;> rfl
@[simp] theorem skipIf_schedule (c : Bool) (s : State) : (skipIf c s).schedule = s.schedule := by cases c <;> rfl
@[simp] theorem skipIf_draws (c : Bool) (s : State) : (skipIf c s).draws = s.draws := by cases c <;> rfl
@[simp] theorem skipIf_drawCount (c : Bool) (s : State) : (skipIf c s).drawCount = s.drawCount := by cases c <;> rfl

@[simp] theorem afterDraw_v (s : State) : (afterDraw s).v = s.v := by unfold afterDraw; split <;> rfl
@[simp] theorem afterDraw_i (s : State) : (afterDraw s).i = s.i := by unfold afterDraw; split <;> rfl
@[simp] theorem afterDraw_pc (s : State) : (afterDraw s).pc = s.pc := by unfold afterDraw; split <;> rfl
@[simp] theorem afterDraw_stack (s : State) : (afterDraw s).stack = s.stack := by unfold afterDraw; split <;> rfl
@[simp] theorem afterDraw_sp (s : State) : (afterDraw s).sp = s.sp := by unfold afterDraw; split <;> rfl
@[simp] theorem afterDraw_dt (s : State) : (afterDraw s).dt = s.dt := by unfold afterDraw; split <;> rfl
@[simp] theorem afterDraw_st (s : State) : (afterDraw s).st = s.st := by unfold afterDraw; split <;> rfl
@[simp] theorem afterDraw_mem (s : State) : (afterDraw s).mem = s.mem := by unfold afterDraw; split <;> rfl
@[simp] theorem afterDraw_fb (s : State) : (afterDraw s).fb = s.fb := by unfold afterDraw; split <;> rfl
@[simp] theorem afterDraw_dirty (s : State) : (afterDraw s).dirty = s.dirty := by unfold afterDraw; split <;> rfl
@[simp] theorem afterDraw_keys (s : State) : (afterDraw s).keys = s.keys := by unfold afterDraw; split <;> rfl
@[simp] theorem afterDraw_opcodeReg (s : State) : (afterDraw s).opcodeReg = s.opcodeReg := by unfold afterDraw; split <;> rfl
@[simp] theorem afterDraw_halted (s : State) : (afterDraw s).halted = s.halted := by unfold afterDraw; split <;> rfl
@[simp] theorem afterDraw_fault (s : State) : (afterDraw s).fault = s.fault := by unfold afterDraw; split <;> rfl
@[simp] theorem afterDraw_schedule (s : State) : (afterDraw s).schedule = s.schedule := by unfold afterDraw; split <;> rfl
@[simp] theorem afterDraw_draws (s : State) : (afterDraw s).draws = s.draws.tail := by unfold afterDraw; split <;> simp_all
@[simp] theorem afterDraw_drawCount (s : State) :
    (afterDraw s).drawCount = if s.draws = [] then s.drawCount + 1 else s.drawCount := by unfold afterDraw; split <;> simp_all

@[simp] theorem tickTimers_v (s : State) : (tickTimers s).v = s.v := by unfold tickTimers; split <;> simp_all
@[simp] theorem tickTimers_i (s : State) : (tickTimers s).i = s.i := by unfold tickTimers; split <;> simp_all
@[simp] theorem tickTimers_pc (s : State) : (tickTimers s).pc = s.pc := by unfold tickTimers; split <;> simp_all
@[simp] theorem tickTimers_stack (s : State) : (tickTimers s).stack = s.stack := by unfold tickTimers; split <;> simp_all
@[simp] theorem tickTimers_sp (s : State) : (tickTimers s).sp = s.sp := by unfold tickTimers; split <;> simp_all
@[simp] theorem tickTimers_dt (s : State) : (tickTimers s).dt = if s.halted then s.dt else decay s.dt := by unfold tickTimers; split <;> simp_all
@[simp] theorem tickTimers_st (s : State) : (tickTimers s).st = if s.halted then s.st else decay s.st := by unfold tickTimers; split <;> simp_all
@[simp] theorem tickTimers_mem (s : State) : (tickTimers s).mem = s.mem := by unfold tickTimers; split <;> simp_all
@[simp] theorem tickTimers_fb (s : State) : (tickTimers s).fb = s.fb := by unfold tickTimers; split <;> simp_all
@[simp] theorem tickTimers_dirty (s : State) : (tickTimers s).dirty = s.dirty := by unfold tickTimers; split <;> simp_all
@[simp] theorem tickTimers_keys (s : State) : (tickTimers s).keys = s.keys := by unfold tickTimers; split <;> simp_all
@[simp] theorem tickTimers_opcodeReg (s : State) : (tickTimers s).opcodeReg = s.opcodeReg := by unfold tickTimers; split <;> simp_all
@[simp] theorem tickTimers_halted (s : State) : (tickTimers s).halted = s.halted := by unfold tickTimers; split <;> simp_all
@[simp] theorem tickTimers_fault (s : State) : (tickTimers s).fault = s.fault := by unfold tickTimers; split <;> simp_all
@[simp] theorem tickTimers_schedule (s : State) : (tickTimers s).schedule = s.schedule := by unfold tickTimers; split <;> simp_all
@[simp] theorem tickTimers_draws (s : State) : (tickTimers s).draws = s.draws := by unfold tickTimers; split <;> simp_all
@[simp] theorem tickTimers_drawCount (s : State) : (tickTimers s).drawCount = s.drawCount := by unfold tickTimers; split <;> simp_all

@[simp] theorem resetCore_v (s : State) : (resetCore s).v = State.reset.v := rfl
@[simp] theorem resetCore_i (s : State) : (resetCore s).i = State.reset.i := rfl
@[simp] theorem resetCore_pc (s : State) : (resetCore s).pc = State.reset.pc := rfl
@[simp] theorem resetCore_stack (s : State) : (resetCore s).stack = State.reset.stack := rfl
@[simp] theorem resetCore_sp (s : State) : (resetCore s).sp = State.reset.sp := rfl
@[simp] theorem resetCore_dt (s : State) : (resetCore s).dt = State.reset.dt := rfl
@[simp] theorem resetCore_st (s : State) : (resetCore s).st = State.reset.st := rfl
@[simp] theorem resetCore_mem (s : State) : (resetCore s).mem = State.reset.mem := rfl
@[simp] theorem resetCore_fb (s : State) : (resetCore s).fb = State.reset.fb := rfl
@[simp] theorem resetCore_dirty (s : State) : (resetCore s).dirty = State.reset.dirty := rfl
@[simp] theorem resetCore_keys (s : State) : (resetCore s).keys = State.reset.keys := rfl
@[simp] theorem resetCore_opcodeReg (s : State) : (resetCore s).opcodeReg = State.reset.opcodeReg := rfl
@[simp] theorem resetCore_halted (s : State) : (resetCore s).halted = State.reset.halted := rfl
@[simp] theorem resetCore_fault (s : State) : (resetCore s).fault = State.reset.fault := rfl
@[simp] theorem resetCore_schedule (s : State) : (resetCore s).schedule = s.schedule := rfl
@[simp] theorem resetCore_draws (s : State) : (resetCore s).draws = s.draws := rfl
@[simp] theorem resetCore_drawCount (s : State) : (resetCore s).drawCount = s.drawCount := rfl

/-! Reading a register after writing one (10_state.md R21). -/

@[simp] theorem readV_writeV_same (s : State) (x : Reg) (b : Byte) : readV (writeV s x b) x = b := by simp [readV, writeV]

theorem readV_writeV_other (s : State) (x y : Reg) (b : Byte) (h : y ≠ x) : readV (writeV s x b) y = readV s y := by
  have : x.val ≠ y.val := fun e => h (Fin.ext e.symm)
  simp [readV, writeV, this]

theorem readV_writeV (s : State) (x y : Reg) (b : Byte) :
    readV (writeV s x b) y = if y = x then b else readV s y := by
  split
  · next h => subst h; exact readV_writeV_same s _ b
  · next h => exact readV_writeV_other s x y b h

/-- The flag is the write that remains (41_alu.md R141). -/
@[simp] theorem readV_writeResultFlag_flag (s : State) (x : Reg) (rf : Byte × Bool) :
    readV (writeResultFlag s x rf) regF = flagByte rf.2 := readV_writeV_same _ _ _

theorem readV_writeResultFlag (s : State) (x y : Reg) (rf : Byte × Bool) :
    readV (writeResultFlag s x rf) y = if y = regF then flagByte rf.2 else if y = x then rf.1 else readV s y := by
  simp only [writeResultFlag, readV_writeV]

end Sys2Proof.Machine
end

