-- ==== Sys2Proof/Laws/Display.lean ====
section
/-! SUPPORT. The laws of the framebuffer (10_state.md R32). -/

namespace Sys2Proof.Machine

/-- Inverting a pixel inverts it. -/
@[simp] theorem getPixel_flipPixel_same (fb : Framebuffer) (r : Fin 32) (c : Fin 64) :
    getPixel (flipPixel fb r c) r c = !getPixel fb r c := by simp [getPixel, flipPixel]

/-- Inverting a pixel leaves every other one alone. -/
theorem getPixel_flipPixel_other (fb : Framebuffer) (r r' : Fin 32) (c c' : Fin 64) (h : ¬ (r' = r ∧ c' = c)) :
    getPixel (flipPixel fb r c) r' c' = getPixel fb r' c' := by
  simp only [getPixel, flipPixel, Fin.getElem_fin, Vector.getElem_set]
  by_cases hr : r.val = r'.val
  · have hr' : r' = r := Fin.ext hr.symm
    subst hr'
    have hc : c.val ≠ c'.val := fun e => h ⟨rfl, Fin.ext e.symm⟩
    simp [hc]
  · simp [hr]

/-- Two framebuffers with equal pixels are equal. -/
theorem framebuffer_ext (a b : Framebuffer) (h : ∀ r c, getPixel a r c = getPixel b r c) : a = b := by
  apply Vector.ext
  intro r hr
  apply Vector.ext
  intro c hc
  exact h ⟨r, hr⟩ ⟨c, hc⟩

/-- A drawn bit: set, it inverts its pixel and records a collision with the pixel before; clear, it does nothing. -/
theorem drawBit_set (x0 y0 : Byte) (row : Nat) (b : Byte) (d : DrawState) (col : Nat) (h : b.getLsbD (7 - col) = true) :
    drawBit x0 y0 row b d col =
      { fb := flipPixel d.fb (spriteRow y0 row) (spriteCol x0 col)
        collide := d.collide || getPixel d.fb (spriteRow y0 row) (spriteCol x0 col)
        changed := true } := by simp [drawBit, h]

theorem drawBit_clear (x0 y0 : Byte) (row : Nat) (b : Byte) (d : DrawState) (col : Nat)
    (h : b.getLsbD (7 - col) = false) : drawBit x0 y0 row b d col = d := by simp [drawBit, h]

/-- The eight columns of a sprite row reach eight different framebuffer columns (44_display.md R202). -/
theorem spriteCol_injective (x0 : Byte) (c d : Nat) (hc : c < 8) (hd : d < 8) (h : spriteCol x0 c = spriteCol x0 d) :
    c = d := by
  have := congrArg Fin.val h
  simp only [spriteCol, Fin.val_ofNat] at this
  omega

/-- The at most 15 rows of a sprite reach different framebuffer rows (44_display.md R202). -/
theorem spriteRow_injective (y0 : Byte) (r q : Nat) (hr : r < 16) (hq : q < 16) (h : spriteRow y0 r = spriteRow y0 q) :
    r = q := by
  have := congrArg Fin.val h
  simp only [spriteRow, Fin.val_ofNat] at this
  omega

/-- What the first `k` columns of a sprite row do (44_display.md R202): they invert exactly the pixels under their set bits,
and report whether one of those was set before and whether there is a set bit. -/
theorem drawBits_spec (x0 y0 : Byte) (row : Nat) (b : Byte) (d : DrawState) (k : Nat) (hk : k ≤ 8) :
    (∀ r c, (∃ col, col < k ∧ b.getLsbD (7 - col) = true ∧ r = spriteRow y0 row ∧ c = spriteCol x0 col) →
      getPixel ((List.range k).foldl (drawBit x0 y0 row b) d).fb r c = !getPixel d.fb r c) ∧
    (∀ r c, (¬ ∃ col, col < k ∧ b.getLsbD (7 - col) = true ∧ r = spriteRow y0 row ∧ c = spriteCol x0 col) →
      getPixel ((List.range k).foldl (drawBit x0 y0 row b) d).fb r c = getPixel d.fb r c) ∧
    (((List.range k).foldl (drawBit x0 y0 row b) d).collide = true ↔ d.collide = true ∨
      ∃ col, col < k ∧ b.getLsbD (7 - col) = true ∧ getPixel d.fb (spriteRow y0 row) (spriteCol x0 col) = true) ∧
    (((List.range k).foldl (drawBit x0 y0 row b) d).changed = true ↔ d.changed = true ∨
      ∃ col, col < k ∧ b.getLsbD (7 - col) = true) := by
  induction k with
  | zero => simp
  | succ k ih =>
    obtain ⟨h1, h2, h3, h4⟩ := ih (by omega)
    rw [List.range_succ, List.foldl_append]
    generalize hd' : (List.range k).foldl (drawBit x0 y0 row b) d = d' at *
    simp only [List.foldl_cons, List.foldl_nil]
    cases hb : b.getLsbD (7 - k) with
    | false =>
      rw [drawBit_clear _ _ _ _ _ _ hb]
      have e : ∀ Q : Nat → Prop, (∃ col, col < k + 1 ∧ b.getLsbD (7 - col) = true ∧ Q col) ↔
          ∃ col, col < k ∧ b.getLsbD (7 - col) = true ∧ Q col := by
        intro Q
        constructor
        · rintro ⟨col, hc, hs, hq⟩
          refine ⟨col, ?_, hs, hq⟩
          rcases Nat.lt_succ_iff_lt_or_eq.mp hc with h | rfl
          · exact h
          · simp [hb] at hs
        · rintro ⟨col, hc, r⟩
          exact ⟨col, by omega, r⟩
      have e' : (∃ col, col < k + 1 ∧ b.getLsbD (7 - col) = true) ↔ ∃ col, col < k ∧ b.getLsbD (7 - col) = true := by
        simpa using e fun _ => True
      simp only [e, e']
      exact ⟨h1, h2, h3, h4⟩
    | true =>
      rw [drawBit_set _ _ _ _ _ _ hb]
      have fresh : ∀ col, col < k → spriteCol x0 col ≠ spriteCol x0 k := fun col hc e =>
        absurd (spriteCol_injective x0 col k (by omega) (by omega) e) (by omega)
      have hold : getPixel d'.fb (spriteRow y0 row) (spriteCol x0 k) = getPixel d.fb (spriteRow y0 row) (spriteCol x0 k) :=
        h2 _ _ fun ⟨col, hc, _, _, hq⟩ => fresh col hc hq.symm
      refine ⟨?_, ?_, ?_, ?_⟩
      · rintro r c ⟨col, hc, hs, rfl, rfl⟩
        rcases Nat.lt_succ_iff_lt_or_eq.mp hc with h | rfl
        · rw [getPixel_flipPixel_other _ _ _ _ _ fun q => fresh col h q.2]
          exact h1 _ _ ⟨col, h, hs, rfl, rfl⟩
        · rw [getPixel_flipPixel_same, hold]
      · intro r c hn
        rw [getPixel_flipPixel_other _ _ _ _ _ fun q => hn ⟨k, by omega, hb, q.1, q.2⟩]
        exact h2 r c fun ⟨col, hc, r⟩ => hn ⟨col, by omega, r⟩
      · simp only [Bool.or_eq_true, h3, hold]
        constructor
        · rintro ((h | ⟨col, hc, r⟩) | h)
          · exact .inl h
          · exact .inr ⟨col, by omega, r⟩
          · exact .inr ⟨k, by omega, hb, h⟩
        · rintro (h | ⟨col, hc, hs, hg⟩)
          · exact .inl (.inl h)
          · rcases Nat.lt_succ_iff_lt_or_eq.mp hc with h | rfl
            · exact .inl (.inr ⟨col, h, hs, hg⟩)
            · exact .inr hg
      · simp only [true_iff]
        exact .inr ⟨k, by omega, hb⟩

/-- What drawing a sprite does (44_display.md R202): it inverts exactly the pixels under its set bits, and reports whether one
of those was set before and whether there is a set bit. -/
theorem drawSprite_spec (m : Memory) (base : Nat) (x0 y0 : Byte) (n : Nat) (fb : Framebuffer) (hn : n ≤ 15) :
    (∀ r c, (∃ row col, row < n ∧ col < 8 ∧ (m.read (base + row)).getLsbD (7 - col) = true ∧
        r = spriteRow y0 row ∧ c = spriteCol x0 col) →
      getPixel (drawSprite m base x0 y0 n fb).fb r c = !getPixel fb r c) ∧
    (∀ r c, (¬ ∃ row col, row < n ∧ col < 8 ∧ (m.read (base + row)).getLsbD (7 - col) = true ∧
        r = spriteRow y0 row ∧ c = spriteCol x0 col) →
      getPixel (drawSprite m base x0 y0 n fb).fb r c = getPixel fb r c) ∧
    ((drawSprite m base x0 y0 n fb).collide = true ↔
      ∃ row col, row < n ∧ col < 8 ∧ (m.read (base + row)).getLsbD (7 - col) = true ∧
        getPixel fb (spriteRow y0 row) (spriteCol x0 col) = true) ∧
    ((drawSprite m base x0 y0 n fb).changed = true ↔
      ∃ row col, row < n ∧ col < 8 ∧ (m.read (base + row)).getLsbD (7 - col) = true) := by
  induction n with
  | zero => simp [drawSprite]
  | succ n ih =>
    obtain ⟨h1, h2, h3, h4⟩ := ih (by omega)
    have e : drawSprite m base x0 y0 (n + 1) fb = drawRow m base x0 y0 (drawSprite m base x0 y0 n fb) n := by
      simp [drawSprite, List.range_succ]
    rw [e]
    generalize drawSprite m base x0 y0 n fb = d at *
    obtain ⟨g1, g2, g3, g4⟩ := drawBits_spec x0 y0 n (m.read (base + n)) d 8 (le_refl _)
    have fresh : ∀ row, row < n → spriteRow y0 row ≠ spriteRow y0 n := fun row hr e =>
      absurd (spriteRow_injective y0 row n (by omega) (by omega) e) (by omega)
    have hold : ∀ c, getPixel d.fb (spriteRow y0 n) c = getPixel fb (spriteRow y0 n) c := fun c =>
      h2 _ _ fun ⟨row, _, hr, _, _, hq, _⟩ => fresh row hr hq.symm
    refine ⟨?_, ?_, ?_, ?_⟩
    · rintro r c ⟨row, col, hr, hc, hs, rfl, rfl⟩
      rcases Nat.lt_succ_iff_lt_or_eq.mp hr with h | rfl
      · rw [drawRow, g2 _ _ fun ⟨_, _, _, hq, _⟩ => fresh row h hq]
        exact h1 _ _ ⟨row, col, h, hc, hs, rfl, rfl⟩
      · rw [drawRow, g1 _ _ ⟨col, hc, hs, rfl, rfl⟩, hold]
    · intro r c hno
      rw [drawRow, g2 _ _ fun ⟨col, hc, hs, q⟩ => hno ⟨n, col, by omega, hc, hs, q⟩]
      exact h2 r c fun ⟨row, col, hr, q⟩ => hno ⟨row, col, by omega, q⟩
    · rw [drawRow, g3, h3]
      simp only [hold]
      constructor
      · rintro (⟨row, col, hr, q⟩ | ⟨col, q⟩)
        · exact ⟨row, col, by omega, q⟩
        · exact ⟨n, col, by omega, q⟩
      · rintro ⟨row, col, hr, q⟩
        rcases Nat.lt_succ_iff_lt_or_eq.mp hr with h | rfl
        · exact .inl ⟨row, col, h, q⟩
        · exact .inr ⟨col, q⟩
    · rw [drawRow, g4, h4]
      constructor
      · rintro (⟨row, col, hr, q⟩ | ⟨col, q⟩)
        · exact ⟨row, col, by omega, q⟩
        · exact ⟨n, col, by omega, q⟩
      · rintro ⟨row, col, hr, q⟩
        rcases Nat.lt_succ_iff_lt_or_eq.mp hr with h | rfl
        · exact .inl ⟨row, col, h, q⟩
        · exact .inr ⟨col, q⟩
end Sys2Proof.Machine
end

