-- ==== Sys2Proof/Laws/Memory.lean ====
section
/-! SUPPORT. The laws of memory: a read after a write, and that every memory operation keeps the canonical form
(20_memory.md R69). -/

namespace Sys2Proof.Machine

/-! ## Reading after a write -/

@[simp] theorem Memory.read_nil (a : Nat) : Memory.read [] a = resetByte a := rfl

@[simp] theorem Memory.read_cons (c : Host.Cell) (m : Memory) (a : Nat) :
    Memory.read (c :: m) a = if c.1 = a then c.2 else Memory.read m a := rfl

theorem Memory.read_eraseCell_same (m : Memory) (a : Nat) : (m.eraseCell a).read a = resetByte a := by
  induction m with
  | nil => rfl
  | cons c m ih =>
    by_cases h : c.1 = a
    · simpa [Memory.eraseCell, h] using ih
    · simpa [Memory.eraseCell, h] using ih

theorem Memory.read_eraseCell_other (m : Memory) (a d : Nat) (h : d ≠ a) : (m.eraseCell a).read d = m.read d := by
  induction m with
  | nil => rfl
  | cons c m ih =>
    by_cases hc : c.1 = a
    · have : c.1 ≠ d := fun e => h (e ▸ hc)
      simpa [Memory.eraseCell, hc, show a ≠ d from fun e => h e.symm] using ih
    · simp only [Memory.eraseCell] at ih
      simp [Memory.eraseCell, hc, ih]

theorem Memory.read_insertCell_other (m : Memory) (a d : Nat) (b : Byte) (h : d ≠ a) :
    (m.insertCell a b).read d = m.read d := by
  induction m with
  | nil => simp [Memory.insertCell, Ne.symm h]
  | cons c m ih =>
    simp only [Memory.insertCell]
    split
    · simp [Ne.symm h]
    · simp [ih]

theorem Memory.read_insertCell_same (m : Memory) (a : Nat) (b : Byte) (h : ∀ c ∈ m, c.1 ≠ a) :
    (m.insertCell a b).read a = b := by
  induction m with
  | nil => simp [Memory.insertCell]
  | cons c m ih =>
    simp only [Memory.insertCell]
    split
    · simp
    · simp [h c (by simp), ih (fun d hd => h d (by simp [hd]))]

theorem Memory.eraseCell_lists_not (m : Memory) (a : Nat) : ∀ c ∈ m.eraseCell a, c.1 ≠ a := by
  intro c hc
  have := (List.mem_filter.mp hc).2
  simpa using this

/-- A byte reads as it was written. -/
@[simp] theorem Memory.read_write_same (m : Memory) (a : Nat) (b : Byte) : (m.write a b).read a = b := by
  unfold Memory.write
  split
  · next h => rw [h]; exact Memory.read_eraseCell_same m a
  · exact Memory.read_insertCell_same _ a b (Memory.eraseCell_lists_not m a)

/-- A write leaves every other byte alone. -/
theorem Memory.read_write_other (m : Memory) (a d : Nat) (b : Byte) (h : d ≠ a) : (m.write a b).read d = m.read d := by
  unfold Memory.write
  split
  · exact Memory.read_eraseCell_other m a d h
  · rw [Memory.read_insertCell_other _ a d b h, Memory.read_eraseCell_other m a d h]

/-- What a run of writes leaves at an address: the byte written there, or what was there before. -/
theorem Memory.read_writeBytes (m : Memory) (a d : Nat) (bs : List Byte) :
    (m.writeBytes a bs).read d =
      if h : a ≤ d ∧ d < a + bs.length then bs[d - a]'(by omega) else m.read d := by
  induction bs generalizing m a with
  | nil =>
    simp [Memory.writeBytes]
  | cons b bs ih =>
    simp only [Memory.writeBytes]
    rw [ih]
    by_cases hd : d = a
    · subst hd
      simp
    · by_cases h1 : a + 1 ≤ d ∧ d < a + 1 + bs.length
      · have h2 : a ≤ d ∧ d < a + (b :: bs).length := by simp only [List.length_cons]; omega
        have e : d - a = (d - (a + 1)) + 1 := by omega
        simp only [h1, h2, and_self, dite_true]
        simp [e]
      · have h2 : ¬ (a ≤ d ∧ d < a + (b :: bs).length) := by simp only [List.length_cons]; omega
        simp only [h1, h2, dite_false]
        exact Memory.read_write_other m a d b hd

/-- A run of writes leaves every byte outside it alone. -/
theorem Memory.read_writeBytes_other (m : Memory) (a d : Nat) (bs : List Byte) (h : d < a ∨ a + bs.length ≤ d) :
    (m.writeBytes a bs).read d = m.read d := by
  rw [Memory.read_writeBytes, dif_neg (by omega)]

/-! ## The canonical form -/

theorem Memory.wf_nil : Memory.wf [] := ⟨List.Pairwise.nil, by simp⟩

theorem Memory.eraseCell_wf (m : Memory) (a : Nat) (h : m.wf) : (m.eraseCell a).wf :=
  ⟨h.1.filter _, fun c hc => h.2 c (List.mem_filter.mp hc).1⟩

theorem Memory.mem_insertCell (m : Memory) (a : Nat) (b : Byte) (c : Host.Cell) :
    c ∈ m.insertCell a b ↔ c = (a, b) ∨ c ∈ m := by
  induction m with
  | nil => simp [Memory.insertCell]
  | cons d m ih =>
    simp only [Memory.insertCell]
    split
    · simp
    · simp only [List.mem_cons, ih]
      tauto

theorem Memory.insertCell_pairwise (m : Memory) (a : Nat) (b : Byte)
    (h : m.Pairwise (fun c d => c.1 < d.1)) (ha : ∀ c ∈ m, c.1 ≠ a) :
    (m.insertCell a b).Pairwise (fun c d => c.1 < d.1) := by
  induction m with
  | nil => simp [Memory.insertCell]
  | cons c m ih =>
    obtain ⟨hc, hm⟩ := List.pairwise_cons.mp h
    simp only [Memory.insertCell]
    split
    · next hlt =>
      refine List.pairwise_cons.mpr ⟨fun d hd => ?_, h⟩
      rcases List.mem_cons.mp hd with rfl | hd
      · exact hlt
      · exact lt_trans hlt (hc d hd)
    · next hnlt =>
      have hne := ha c (by simp)
      refine List.pairwise_cons.mpr ⟨fun d hd => ?_, ih hm (fun d hd => ha d (by simp [hd]))⟩
      rcases (Memory.mem_insertCell m a b d).mp hd with rfl | hd
      · simp only; omega
      · exact hc d hd

/-- A write inside `mem` keeps the canonical form. -/
theorem Memory.write_wf (m : Memory) (a : Nat) (b : Byte) (h : m.wf) (ha : a < Config.memSize) : (m.write a b).wf := by
  unfold Memory.write
  split
  · exact Memory.eraseCell_wf m a h
  · next hb =>
    have he := Memory.eraseCell_wf m a h
    refine ⟨Memory.insertCell_pairwise _ a b he.1 (Memory.eraseCell_lists_not m a), fun c hc => ?_⟩
    rcases (Memory.mem_insertCell _ a b c).mp hc with rfl | hc
    · exact ⟨ha, hb⟩
    · exact he.2 c hc

/-- A run of writes inside `mem` keeps the canonical form. -/
theorem Memory.writeBytes_wf (m : Memory) (a : Nat) (bs : List Byte) (h : m.wf) (ha : a + bs.length ≤ Config.memSize) :
    (m.writeBytes a bs).wf := by
  induction bs generalizing m a with
  | nil => exact h
  | cons b bs ih =>
    simp only [List.length_cons] at ha
    exact ih _ _ (Memory.write_wf m a b h (by omega)) (by omega)

end Sys2Proof.Machine
end

