-- ==== Sys2Proof/Laws/Ops.lean ====
section
/-! SUPPORT. One lemma for each shared operation that says everything it can do; the provers cite these and do not unfold
the operations. -/

namespace Sys2Proof.Machine

theorem inMemory_iff (a : Nat) : inMemory a = true ↔ a ≤ 0xFFF := by simp [inMemory]

/-- `raise` always answers a next state, the one fault entry gives (60_exceptions.md R242). -/
theorem raise_eq (c : Cause) (s : State) : raise c s = .next (enterFault c (s.pc - 2) (some s.opcodeReg) s) := rfl

/-- `Push` below 16 entries. -/
theorem push_of_room (w : Word) (s : State) (h : s.sp.val < 16) :
    push w s = some { s with stack := s.stack.set s.sp.val w, sp := ⟨s.sp.val + 1, by omega⟩ } := by simp [push, h]

/-- `Push` with 16 entries held. -/
theorem push_of_full (w : Word) (s : State) (h : s.sp.val = 16) : push w s = none := by simp [push, h]

/-- `Pop` with an entry held. -/
theorem pop_of_entry (s : State) (h : s.sp.val ≠ 0) :
    pop s = some (s.stack[s.sp.val - 1]'(by omega), { s with sp := ⟨s.sp.val - 1, by omega⟩ }) := by simp [pop, h]

/-- `Pop` with no entry held. -/
theorem pop_of_empty (s : State) (h : s.sp.val = 0) : pop s = none := by simp [pop, h]

/-- Whatever `Push` and `Pop` answer. -/
theorem push_cases (w : Word) (s : State) :
    (∃ _h : s.sp.val < 16, push w s = some { s with stack := s.stack.set s.sp.val w, sp := ⟨s.sp.val + 1, by omega⟩ }) ∨
    (s.sp.val = 16 ∧ push w s = none) := by
  by_cases h : s.sp.val < 16
  · exact .inl ⟨h, push_of_room w s h⟩
  · have : s.sp.val = 16 := by omega
    exact .inr ⟨this, push_of_full w s this⟩

theorem pop_cases (s : State) :
    (∃ _h : s.sp.val ≠ 0, pop s = some (s.stack[s.sp.val - 1]'(by omega), { s with sp := ⟨s.sp.val - 1, by omega⟩ })) ∨
    (s.sp.val = 0 ∧ pop s = none) := by
  by_cases h : s.sp.val = 0
  · exact .inr ⟨h, pop_of_empty s h⟩
  · exact .inl ⟨h, pop_of_entry s h⟩

/-- Everything a cycle can do: nothing while halted, a failed fetch, an illegal word, or one instruction
(30_encoding.md R93). -/
theorem cycle_cases (s : State) :
    (s.halted = true ∧ cycle s = .next s) ∨
    (s.halted = false ∧ s.pc.toNat > 0xFFE ∧ cycle s = .next (enterFault .fetchOutOfBounds s.pc none s)) ∨
    (s.halted = false ∧ s.pc.toNat ≤ 0xFFE ∧ ∃ e, decodeWord (fetchWord s.mem s.pc.toNat) = .error e ∧
      cycle s = raise .illegalOpcode (fetched (fetchWord s.mem s.pc.toNat) s)) ∨
    (s.halted = false ∧ s.pc.toNat ≤ 0xFFE ∧ ∃ i, decodeWord (fetchWord s.mem s.pc.toNat) = .ok i ∧
      cycle s = exec i (fetched (fetchWord s.mem s.pc.toNat) s)) := by
  by_cases hh : s.halted = true
  · exact .inl ⟨hh, by simp [cycle, hh]⟩
  · have hf : s.halted = false := by simpa using hh
    by_cases hp : s.pc.toNat > 0xFFE
    · exact .inr (.inl ⟨hf, hp, by simp [cycle, hf, lastFetch, hp]⟩)
    · have hp' : s.pc.toNat ≤ 0xFFE := by omega
      cases hd : decodeWord (fetchWord s.mem s.pc.toNat) with
      | error e => exact .inr (.inr (.inl ⟨hf, hp', e, rfl, by simp [cycle, hf, lastFetch, hp, decodeExecute, hd]⟩))
      | ok i => exact .inr (.inr (.inr ⟨hf, hp', i, rfl, by simp [cycle, hf, lastFetch, hp, decodeExecute, hd]⟩))

/-- What comes next in each form of schedule (60_exceptions.md R271). -/
@[simp] theorem Schedule.next_pending (op : HostOp) (rest : List HostOp) (w : Onward) (k : Nat) :
    Schedule.next ⟨op :: rest, w, k⟩ = some (op, ⟨rest, w, k⟩) := rfl

@[simp] theorem Schedule.next_stop (k : Nat) : Schedule.next ⟨[], .stop, k⟩ = none := rfl

@[simp] theorem Schedule.next_repeating (first : HostOp) (others : List HostOp) (k : Nat) :
    Schedule.next ⟨[], .repeating first others, k⟩ = some (first, ⟨others, .repeating first others, k⟩) := rfl

@[simp] theorem Schedule.next_free (k : Nat) : Schedule.next ⟨[], .free, k⟩ = some (Config.hostOp k, ⟨[], .free, k + 1⟩) := rfl

/-- Everything a step can do: nothing where the host requests nothing further, or the next operation of the schedule
(60_exceptions.md R271). -/
theorem step_cases (s : State) :
    (s.schedule.next = none ∧ step s = .next s) ∨
    (∃ op rest, s.schedule.next = some (op, rest) ∧ step s = applyOp op { s with schedule := rest }) := by
  cases h : s.schedule.next with
  | none => exact .inl ⟨rfl, by simp [step, nextOperation, h]⟩
  | some q => exact .inr ⟨q.1, q.2, rfl, by simp [step, nextOperation, h]⟩

/-- The lowest pressed key is pressed, and no lower one is (45_input.md R223). -/
theorem lowestPressed_some (keys : Vector Bool 16) (k : Fin 16) (h : lowestPressed keys = some k) :
    keys[k] = true ∧ ∀ j : Fin 16, j < k → keys[j] = false := by
  obtain ⟨hk, as, bs, hab, hno⟩ := List.find?_eq_some_iff_append.mp h
  refine ⟨hk, fun j hj => ?_⟩
  have hsorted : (List.finRange 16).Pairwise (· < ·) := List.pairwise_lt_finRange 16
  have hmem : j ∈ as ++ k :: bs := hab ▸ List.mem_finRange j
  rcases List.mem_append.mp hmem with h1 | h1
  · simpa using hno j h1
  · rw [hab] at hsorted
    have := (List.pairwise_append.mp hsorted).2.1
    rcases List.mem_cons.mp h1 with rfl | h2
    · exact absurd hj (lt_irrefl _)
    · exact absurd (lt_trans hj ((List.pairwise_cons.mp this).1 j h2)) (lt_irrefl _)

/-- No key is found exactly when none is pressed. -/
theorem lowestPressed_none (keys : Vector Bool 16) : lowestPressed keys = none ↔ ∀ k : Fin 16, keys[k] = false := by
  simp [lowestPressed, List.find?_eq_none]

end Sys2Proof.Machine
end

