-- ==== Sys2Proof/Laws/Step.lean ====
section
/-! SUPPORT. What a step is when the next operation is a cycle. -/

namespace Sys2Proof.Machine

/-- A step applies the next operation, taken off the schedule. -/
theorem step_of_operationNext (s : State) (op : HostOp) (rest : Schedule) (h : OperationNext s op rest) :
    step s = applyOp op { s with schedule := rest } := by
  rw [OperationNext] at h
  simp [step, nextOperation, h]

/-- A step whose next operation is a cycle is that cycle. -/
theorem step_of_cycleNext (s : State) (rest : Schedule) (h : CycleNext s rest) : step s = cycle { s with schedule := rest } :=
  step_of_operationNext s .cycle rest h

/-- Where `cycleIsNext` says so, the next operation is a cycle. -/
theorem exists_next_of_cycleIsNext (q : Schedule) (h : cycleIsNext q = true) : ∃ rest, q.next = some (.cycle, rest) := by
  rcases q with ⟨_ | ⟨op, ops⟩, w, k⟩
  · cases w with
    | repeating first others => cases first <;> simp_all [cycleIsNext]
    | _ => simp [cycleIsNext] at h
  · cases op <;> simp_all [cycleIsNext]

/-- After `placeWord` the next operation is a cycle. -/
theorem cycleNext_placeWord (s : State) (op : Word) : ∃ rest, CycleNext (placeWord s op) rest := by
  by_cases h : cycleIsNext s.schedule = true
  · obtain ⟨rest, hr⟩ := exists_next_of_cycleIsNext _ h
    exact ⟨rest, by simp [CycleNext, OperationNext, placeWord, h, hr]⟩
  · exact ⟨s.schedule, by simp [CycleNext, OperationNext, placeWord, h]⟩

/-- A cycle that is not halted and can fetch decodes the word at `pc` and executes it. -/
theorem cycle_of_fetch (s : State) (hh : s.halted = false) (hp : s.pc.toNat ≤ 0xFFE) :
    cycle s = decodeExecute (fetchWord s.mem s.pc.toNat) (fetched (fetchWord s.mem s.pc.toNat) s) := by
  simp [cycle, hh, lastFetch, show ¬ s.pc.toNat > 0xFFE by omega]

end Sys2Proof.Machine
end

