-- ==== Sys2Proof/Laws/Exec.lean ====
section
/-! SUPPORT. Said once: what executing an instruction can do to each piece of state. Frames and invariants derive from
`exec_effect` and do not unfold `exec` again. -/

namespace Sys2Proof.Machine

/-- A register that `writeV` changed is the one it names. -/
theorem eq_of_readV_writeV_ne (s : State) (x y : Reg) (b : Byte) (h : readV (writeV s x b) y ≠ readV s y) : x = y := by
  by_contra hx
  exact h (readV_writeV_other s x y b (Ne.symm hx))

/-- The faults an instruction can raise (60_exceptions.md R244). -/
def isExecuteCause (c : Cause) : Bool := c == .stackOverflow || c == .stackUnderflow || c == .dataOutOfBounds

/-- What executing `i` in `s` and arriving in `t` leaves alone, and which instruction changed what. -/
structure ExecEffect (i : Instr) (s t : State) : Prop where
  keys : t.keys = s.keys
  opcodeReg : t.opcodeReg = s.opcodeReg
  schedule : t.schedule = s.schedule
  dirty : s.dirty = true → t.dirty = true
  mem : t.mem ≠ s.mem → ∃ x, i = .ldBVx x ∨ i = .ldMemVx x
  fb : t.fb ≠ s.fb → i = .cls ∨ ∃ x y n, i = .drw x y n
  dt : t.dt ≠ s.dt → ∃ x, i = .ldDtVx x ∧ t.dt = readV s x
  st : t.st ≠ s.st → ∃ x, i = .ldStVx x ∧ t.st = readV s x
  index : t.i ≠ s.i → (∃ nnn, i = .ldI nnn) ∨ (∃ x, i = .addIVx x) ∨ ∃ x, i = .ldFVx x
  sp : t.sp ≠ s.sp → (∃ nnn, i = .call nnn) ∨ i = .ret
  stack : t.stack ≠ s.stack → ∃ nnn, i = .call nnn
  draws : ¬ (t.draws = s.draws ∧ t.drawCount = s.drawCount) → ∃ x kk, i = .rnd x kk
  flag : readV t 0xF ≠ readV s 0xF → mayWriteVF i = true
  fault : (t.halted = s.halted ∧ t.fault = s.fault) ∨
    ∃ c, isExecuteCause c = true ∧ t = enterFault c (s.pc - 2) (some s.opcodeReg) s

/-- A raised fault changes nothing but what fault entry writes. -/
theorem execEffect_of_raise (i : Instr) (c : Cause) (s t : State) (hc : isExecuteCause c = true)
    (h : raise c s = .next t) : ExecEffect i s t := by
  obtain rfl : enterFault c (s.pc - 2) (some s.opcodeReg) s = t := by simpa [raise] using h
  constructor <;> simp [readV]
  exact .inr ⟨c, hc, rfl⟩

/-- The effect of any instruction from any state. -/
theorem exec_effect (i : Instr) (s t : State) (h : exec i s = .next t) : ExecEffect i s t := by
  cases i with
  | ret =>
    simp only [exec, execRet] at h
    rcases pop_cases s with ⟨hs, hp⟩ | ⟨hs, hp⟩ <;> rw [hp] at h
    · simp only [Host.Outcome.next.injEq] at h
      subst h
      constructor <;> simp [readV]
    · exact execEffect_of_raise _ _ s t rfl h
  | call nnn =>
    simp only [exec, execCall] at h
    rcases push_cases s.pc s with ⟨hs, hp⟩ | ⟨hs, hp⟩ <;> rw [hp] at h
    · simp only [Host.Outcome.next.injEq] at h
      subst h
      constructor <;> simp [readV]
    · exact execEffect_of_raise _ _ s t rfl h
  | ldBVx x =>
    simp only [exec, execLdBVx] at h
    split at h
    · simp only [Host.Outcome.next.injEq] at h
      subst h
      constructor <;> simp [readV]
    · exact execEffect_of_raise _ _ s t rfl h
  | ldMemVx x =>
    simp only [exec, execLdMemVx] at h
    split at h
    · simp only [Host.Outcome.next.injEq] at h
      subst h
      constructor <;> simp [readV]
    · exact execEffect_of_raise _ _ s t rfl h
  | ldVxMem x =>
    simp only [exec, execLdVxMem] at h
    split at h
    · simp only [Host.Outcome.next.injEq] at h
      subst h
      constructor <;> simp [readV, registersLoaded, mayWriteVF]
      exact fun h1 _ => le_antisymm (Fin.le_last x) h1
    · exact execEffect_of_raise _ _ s t rfl h
  | drw x y n =>
    simp only [exec, execDrw] at h
    split at h
    · simp only [Host.Outcome.next.injEq] at h
      subst h
      constructor <;> simp [mayWriteVF]
      exact fun hd => .inl hd
    · exact execEffect_of_raise _ _ s t rfl h
  | ldVxK x =>
    simp only [exec, execLdVxK] at h
    split at h <;> simp only [Host.Outcome.next.injEq] at h <;> subst h
    · constructor <;> simp [mayWriteVF]
      exact eq_of_readV_writeV_ne s x 0xF _
    · constructor <;> simp [readV]
  | rnd x kk =>
    simp only [exec, execRnd, Host.Outcome.next.injEq] at h
    subst h
    constructor <;> simp [mayWriteVF]
    intro hn
    refine eq_of_readV_writeV_ne (afterDraw s) x 0xF (drawByte s &&& kk) fun e => hn (e.trans ?_)
    simp [readV]
  | _ =>
    simp only [exec, execCls, execJp, execSeVxKk, execSneVxKk, execSeVxVy, execLdVxKk, execAddVxKk, execLdVxVy, execOr,
      execAnd, execXor, execAddVxVy, execSub, execShr, execSubn, execShl, execSneVxVy, execLdI, execJpV0, execSkp,
      execSknp, execLdVxDt, execLdDtVx, execLdStVx, execAddIVx, execLdFVx, Host.Outcome.next.injEq] at h
    subst h
    constructor <;> simp [mayWriteVF] <;> first | exact eq_of_readV_writeV_ne s _ 0xF _ | simp [readV]

end Sys2Proof.Machine
end

