-- ==== Sys2Proof/Laws/PerInstr.lean ====
section
/-! SUPPORT. Statements about every instruction as syntax, one lemma for each constructor (LAWS.json). `RowMatch`: the
encoded word of an instruction matches the row of the opcode table that the instruction belongs to (30_encoding.md R97). -/

namespace Sys2Proof.Laws

/-- Bits of two appends of the same shape, by parts. -/
theorem and_append {a b : Nat} (p p' : BitVec a) (q q' : BitVec b) : (p ++ q) &&& (p' ++ q') = (p &&& p') ++ (q &&& q') := by
  apply BitVec.eq_of_getLsbD_eq; intro i hi
  simp only [BitVec.getLsbD_and, BitVec.getLsbD_append]
  split <;> rfl

theorem and_ones4 (p : BitVec 4) : p &&& 0xF#4 = p := BitVec.and_allOnes (x := p)

theorem and_ones8 (p : BitVec 8) : p &&& 0xFF#8 = p := BitVec.and_allOnes (x := p)

theorem mask_addr (p : BitVec 4) (nnn : Addr) : (p ++ nnn : Word) &&& 0xF000#16 = p ++ 0x000#12 :=
  (and_append p 0xF#4 nnn 0x000#12).trans (by rw [and_ones4, BitVec.and_zero])

theorem mask_byte (p x : BitVec 4) (kk : Byte) : (p ++ x ++ kk : Word) &&& 0xF000#16 = p ++ 0x0#4 ++ 0x00#8 :=
  (and_append (p ++ x) (0xF#4 ++ 0x0#4) kk 0x00#8).trans (by rw [and_append p, and_ones4, BitVec.and_zero, BitVec.and_zero])

theorem mask_selector (p x : BitVec 4) (kk : Byte) : (p ++ x ++ kk : Word) &&& 0xF0FF#16 = p ++ 0x0#4 ++ kk :=
  (and_append (p ++ x) (0xF#4 ++ 0x0#4) kk 0xFF#8).trans (by rw [and_append p, and_ones4, and_ones8, BitVec.and_zero])

theorem mask_nibble (p x y n : BitVec 4) : (p ++ x ++ y ++ n : Word) &&& 0xF00F#16 = p ++ 0x0#4 ++ 0x0#4 ++ n :=
  (and_append (p ++ x ++ y) (0xF#4 ++ 0x0#4 ++ 0x0#4) n 0xF#4).trans
    (by rw [and_append (p ++ x), and_append p, and_ones4, and_ones4, BitVec.and_zero, BitVec.and_zero])

theorem mask_nibbles (p x y n : BitVec 4) : (p ++ x ++ y ++ n : Word) &&& 0xF000#16 = p ++ 0x0#4 ++ 0x0#4 ++ 0x0#4 :=
  (and_append (p ++ x ++ y) (0xF#4 ++ 0x0#4 ++ 0x0#4) n 0x0#4).trans
    (by rw [and_append (p ++ x), and_append p, and_ones4, BitVec.and_zero, BitVec.and_zero, BitVec.and_zero])

/-- The word of the instruction matches its row. -/
def RowMatch.Statement (i : Instr) : Prop := (rowOf i).accepts (encode i) = true

theorem RowMatch.cls : RowMatch.Statement .cls :=
  by unfold RowMatch.Statement; decide

theorem RowMatch.ret : RowMatch.Statement .ret :=
  by unfold RowMatch.Statement; decide

theorem RowMatch.jp (nnn : Addr) : RowMatch.Statement (.jp nnn) :=
  beq_iff_eq.mpr (mask_addr _ nnn)

theorem RowMatch.call (nnn : Addr) : RowMatch.Statement (.call nnn) :=
  beq_iff_eq.mpr (mask_addr _ nnn)

theorem RowMatch.seVxKk (x : Reg) (kk : Byte) : RowMatch.Statement (.seVxKk x kk) :=
  beq_iff_eq.mpr (mask_byte _ (nib x) kk)

theorem RowMatch.sneVxKk (x : Reg) (kk : Byte) : RowMatch.Statement (.sneVxKk x kk) :=
  beq_iff_eq.mpr (mask_byte _ (nib x) kk)

theorem RowMatch.seVxVy (x y : Reg) : RowMatch.Statement (.seVxVy x y) :=
  beq_iff_eq.mpr (mask_nibble _ (nib x) (nib y) _)

theorem RowMatch.ldVxKk (x : Reg) (kk : Byte) : RowMatch.Statement (.ldVxKk x kk) :=
  beq_iff_eq.mpr (mask_byte _ (nib x) kk)

theorem RowMatch.addVxKk (x : Reg) (kk : Byte) : RowMatch.Statement (.addVxKk x kk) :=
  beq_iff_eq.mpr (mask_byte _ (nib x) kk)

theorem RowMatch.ldVxVy (x y : Reg) : RowMatch.Statement (.ldVxVy x y) :=
  beq_iff_eq.mpr (mask_nibble _ (nib x) (nib y) _)

theorem RowMatch.orVxVy (x y : Reg) : RowMatch.Statement (.orVxVy x y) :=
  beq_iff_eq.mpr (mask_nibble _ (nib x) (nib y) _)

theorem RowMatch.andVxVy (x y : Reg) : RowMatch.Statement (.andVxVy x y) :=
  beq_iff_eq.mpr (mask_nibble _ (nib x) (nib y) _)

theorem RowMatch.xorVxVy (x y : Reg) : RowMatch.Statement (.xorVxVy x y) :=
  beq_iff_eq.mpr (mask_nibble _ (nib x) (nib y) _)

theorem RowMatch.addVxVy (x y : Reg) : RowMatch.Statement (.addVxVy x y) :=
  beq_iff_eq.mpr (mask_nibble _ (nib x) (nib y) _)

theorem RowMatch.subVxVy (x y : Reg) : RowMatch.Statement (.subVxVy x y) :=
  beq_iff_eq.mpr (mask_nibble _ (nib x) (nib y) _)

theorem RowMatch.shr (x y : Reg) : RowMatch.Statement (.shr x y) :=
  beq_iff_eq.mpr (mask_nibble _ (nib x) (nib y) _)

theorem RowMatch.subnVxVy (x y : Reg) : RowMatch.Statement (.subnVxVy x y) :=
  beq_iff_eq.mpr (mask_nibble _ (nib x) (nib y) _)

theorem RowMatch.shl (x y : Reg) : RowMatch.Statement (.shl x y) :=
  beq_iff_eq.mpr (mask_nibble _ (nib x) (nib y) _)

theorem RowMatch.sneVxVy (x y : Reg) : RowMatch.Statement (.sneVxVy x y) :=
  beq_iff_eq.mpr (mask_nibble _ (nib x) (nib y) _)

theorem RowMatch.ldI (nnn : Addr) : RowMatch.Statement (.ldI nnn) :=
  beq_iff_eq.mpr (mask_addr _ nnn)

theorem RowMatch.jpV0 (nnn : Addr) : RowMatch.Statement (.jpV0 nnn) :=
  beq_iff_eq.mpr (mask_addr _ nnn)

theorem RowMatch.rnd (x : Reg) (kk : Byte) : RowMatch.Statement (.rnd x kk) :=
  beq_iff_eq.mpr (mask_byte _ (nib x) kk)

theorem RowMatch.drw (x y : Reg) (n : Fin 16) : RowMatch.Statement (.drw x y n) :=
  beq_iff_eq.mpr (mask_nibbles _ (nib x) (nib y) (nib n))

theorem RowMatch.skp (x : Reg) : RowMatch.Statement (.skp x) :=
  beq_iff_eq.mpr (mask_selector _ (nib x) _)

theorem RowMatch.sknp (x : Reg) : RowMatch.Statement (.sknp x) :=
  beq_iff_eq.mpr (mask_selector _ (nib x) _)

theorem RowMatch.ldVxDt (x : Reg) : RowMatch.Statement (.ldVxDt x) :=
  beq_iff_eq.mpr (mask_selector _ (nib x) _)

theorem RowMatch.ldVxK (x : Reg) : RowMatch.Statement (.ldVxK x) :=
  beq_iff_eq.mpr (mask_selector _ (nib x) _)

theorem RowMatch.ldDtVx (x : Reg) : RowMatch.Statement (.ldDtVx x) :=
  beq_iff_eq.mpr (mask_selector _ (nib x) _)

theorem RowMatch.ldStVx (x : Reg) : RowMatch.Statement (.ldStVx x) :=
  beq_iff_eq.mpr (mask_selector _ (nib x) _)

theorem RowMatch.addIVx (x : Reg) : RowMatch.Statement (.addIVx x) :=
  beq_iff_eq.mpr (mask_selector _ (nib x) _)

theorem RowMatch.ldFVx (x : Reg) : RowMatch.Statement (.ldFVx x) :=
  beq_iff_eq.mpr (mask_selector _ (nib x) _)

theorem RowMatch.ldBVx (x : Reg) : RowMatch.Statement (.ldBVx x) :=
  beq_iff_eq.mpr (mask_selector _ (nib x) _)

theorem RowMatch.ldMemVx (x : Reg) : RowMatch.Statement (.ldMemVx x) :=
  beq_iff_eq.mpr (mask_selector _ (nib x) _)

theorem RowMatch.ldVxMem (x : Reg) : RowMatch.Statement (.ldVxMem x) :=
  beq_iff_eq.mpr (mask_selector _ (nib x) _)

end Sys2Proof.Laws
end

