-- ==== Sys2Proof/Tests/Slice0.lean ====
section
/-! SUPPORT. Tests of the model: expected values are those of spec/95_test_vectors.md, named by their identifiers, or the
encodings of 30_encoding.md; and witnesses that the hypotheses of the statements can be met. -/

namespace Sys2Proof.Tests

open Sys2Proof Sys2Proof.Machine

/-! ## Helpers -/

/-- The reset state with some registers written. -/
def regs (l : List (Reg × Byte)) : State := l.foldl (fun s p => writeV s p.1 p.2) State.reset

/-- Some bytes of memory written. -/
def store (s : State) (a : Nat) (bs : List Byte) : State := { s with mem := s.mem.writeBytes a bs }

/-- The operations listed come next, then cycles for ever. -/
def queue (ops : List HostOp) : Schedule := { State.reset.schedule with pending := ops }

/-- One step with the word placed. -/
def run (w : Nat) (s : State) : Result := step (s.withFetchWord 16 w)

/-- The outcome is a next state, and the state passes the check. -/
def after (r : Result) (p : State → Bool) : Bool :=
  match r with
  | .next t => p t
  | _ => false

/-- The state is halted with this record and stands at the recorded pc. -/
def faultIs (c : Cause) (p : Word) (op : Option Word) (t : State) : Bool :=
  t.halted && (t.fault == ⟨c, p, op⟩) && (t.pc == p)

/-- Registers and pc as expected. -/
def has (l : List (Reg × Byte)) (pc : Word) (t : State) : Bool := (t.pc == pc) && l.all (fun p => readV t p.1 == p.2)

/-- A state with all 16 stack entries held. -/
def fullStack : State := { State.reset with stack := Vector.replicate 16 0x0202#16, sp := 16 }

/-- A halted state, as a word 0x0123 at 0x200 leaves it (vector E2). -/
def halted0123 : State :=
  { State.reset with halted := true, fault := ⟨.illegalOpcode, 0x0200#16, some 0x0123#16⟩, opcodeReg := 0x0123#16 }

/-! ## WellFormed: each check refuses an ill-formed word and takes a legal one (30_encoding.md R98, R99; vectors E2 to E10) -/

theorem test_illformed_nibble0_sys : legalWord 0x0123#16 = false := by decide

theorem test_illformed_nibble0_superchip : legalWord 0x00FF#16 = false := by decide

theorem test_illformed_nibble0_bits_11_8 : legalWord 0x01E0#16 = false := by decide

theorem test_illformed_nibble5 : legalWord 0x5121#16 = false := by decide

theorem test_illformed_nibble9 : legalWord 0x9121#16 = false := by decide

theorem test_illformed_nibble8 : legalWord 0x8008#16 = false := by decide

theorem test_illformed_nibbleE : legalWord 0xE000#16 = false := by decide

theorem test_illformed_nibbleF : legalWord 0xF000#16 = false := by decide

theorem test_illformed_nibbleF_superchip : legalWord 0xF030#16 = false := by decide

theorem test_wellformed_each_check :
    [0x00E0#16, 0x5120#16, 0x9120#16, 0x812E#16, 0xE19E#16, 0xF165#16, 0x1234#16].all legalWord = true := by decide

/-! ## Decoding: the word of every constructor, written out from 30_encoding.md R97 -/

theorem test_decode_cls : decodeTableWord 16 0x00E0 = some (.cls) := by decide

theorem test_decode_ret : decodeTableWord 16 0x00EE = some (.ret) := by decide

theorem test_decode_jp : decodeTableWord 16 0x1234 = some (.jp 0x234#12) := by decide

theorem test_decode_call : decodeTableWord 16 0x2ABC = some (.call 0xABC#12) := by decide

theorem test_decode_seVxKk : decodeTableWord 16 0x3342 = some (.seVxKk 3 0x42#8) := by decide

theorem test_decode_sneVxKk : decodeTableWord 16 0x4F42 = some (.sneVxKk 0xF 0x42#8) := by decide

theorem test_decode_seVxVy : decodeTableWord 16 0x5120 = some (.seVxVy 1 2) := by decide

theorem test_decode_ldVxKk : decodeTableWord 16 0x6A2F = some (.ldVxKk 0xA 0x2F#8) := by decide

theorem test_decode_addVxKk : decodeTableWord 16 0x7101 = some (.addVxKk 1 0x01#8) := by decide

theorem test_decode_ldVxVy : decodeTableWord 16 0x8120 = some (.ldVxVy 1 2) := by decide

theorem test_decode_orVxVy : decodeTableWord 16 0x8121 = some (.orVxVy 1 2) := by decide

theorem test_decode_andVxVy : decodeTableWord 16 0x8122 = some (.andVxVy 1 2) := by decide

theorem test_decode_xorVxVy : decodeTableWord 16 0x8123 = some (.xorVxVy 1 2) := by decide

theorem test_decode_addVxVy : decodeTableWord 16 0x8F14 = some (.addVxVy 0xF 1) := by decide

theorem test_decode_subVxVy : decodeTableWord 16 0x8125 = some (.subVxVy 1 2) := by decide

theorem test_decode_shr : decodeTableWord 16 0x8126 = some (.shr 1 2) := by decide

theorem test_decode_subnVxVy : decodeTableWord 16 0x8127 = some (.subnVxVy 1 2) := by decide

theorem test_decode_shl : decodeTableWord 16 0x81EE = some (.shl 1 0xE) := by decide

theorem test_decode_sneVxVy : decodeTableWord 16 0x9120 = some (.sneVxVy 1 2) := by decide

theorem test_decode_ldI : decodeTableWord 16 0xA2F0 = some (.ldI 0x2F0#12) := by decide

theorem test_decode_jpV0 : decodeTableWord 16 0xBFFF = some (.jpV0 0xFFF#12) := by decide

theorem test_decode_rnd : decodeTableWord 16 0xC30F = some (.rnd 3 0x0F#8) := by decide

theorem test_decode_drw : decodeTableWord 16 0xD125 = some (.drw 1 2 5) := by decide

theorem test_decode_skp : decodeTableWord 16 0xE19E = some (.skp 1) := by decide

theorem test_decode_sknp : decodeTableWord 16 0xE1A1 = some (.sknp 1) := by decide

theorem test_decode_ldVxDt : decodeTableWord 16 0xF507 = some (.ldVxDt 5) := by decide

theorem test_decode_ldVxK : decodeTableWord 16 0xF30A = some (.ldVxK 3) := by decide

theorem test_decode_ldDtVx : decodeTableWord 16 0xF515 = some (.ldDtVx 5) := by decide

theorem test_decode_ldStVx : decodeTableWord 16 0xF218 = some (.ldStVx 2) := by decide

theorem test_decode_addIVx : decodeTableWord 16 0xF21E = some (.addIVx 2) := by decide

theorem test_decode_ldFVx : decodeTableWord 16 0xF029 = some (.ldFVx 0) := by decide

theorem test_decode_ldBVx : decodeTableWord 16 0xF033 = some (.ldBVx 0) := by decide

theorem test_decode_ldMemVx : decodeTableWord 16 0xF255 = some (.ldMemVx 2) := by decide

theorem test_decode_ldVxMem : decodeTableWord 16 0xFF65 = some (.ldVxMem 0xF) := by decide

theorem test_decode_illegal_by_name : decodeWord 0x8128#16 = .error (.illegal8 0x8128#16) := by decide

theorem test_decode_truncated : decodeBytes [0x12#8] = .error .truncated := by decide

/-- The two bytes are taken high byte first and the rest is handed on (20_memory.md R63). -/
theorem test_decode_bytes : decodeBytes [0x6A#8, 0x2F#8, 0x12#8] = .ok (.ldVxKk 0xA 0x2F#8, [0x12#8]) := by decide

theorem test_encode_drw : encodeBytes (.drw 1 2 5) = [0xD1#8, 0x25#8] := by decide

theorem test_table_has_34_rows : opcodeTable.length = 34 := by decide

theorem test_asm_text : asmText (.drw 1 2 5) = "DRW V1, V2, 5" := by decide

/-! ## One step of each instruction, at most two vectors each -/

/-- D1, checked at two corners -/
theorem test_cls : after (run 0x00E0 { State.reset with fb := Vector.replicate 32 (Vector.replicate 64 true) }) (fun t => !getPixel t.fb 0 0 && !getPixel t.fb 31 63 && t.dirty) = true := by decide

/-- D2 -/
theorem test_cls_sets_dirty : after (run 0x00E0 State.reset) (fun t => t.dirty) = true := by decide

/-- C7 -/
theorem test_ret : after (run 0x00EE { State.reset with pc := 0x0212#16, sp := 1, stack := State.reset.stack.set 0 0x0206#16 }) (fun t => (t.pc == 0x0206#16) && (t.sp == 0) && (t.stack[0] == 0x0206#16)) = true := by decide

/-- C8 -/
theorem test_ret_underflow : after (run 0x00EE State.reset) (faultIs .stackUnderflow 0x0200#16 (some 0x00EE#16)) = true := by decide

/-- C1 -/
theorem test_jp : after (run 0x1234 State.reset) (fun t => t.pc == 0x0234#16) = true := by decide

/-- C5 -/
theorem test_call : after (run 0x2ABC { State.reset with pc := 0x0FFE#16 }) (fun t => (t.stack[0] == 0x1000#16) && (t.sp == 1) && (t.pc == 0x0ABC#16)) = true := by decide

/-- C6 -/
theorem test_call_overflow : after (run 0x2300 fullStack) (fun t => faultIs .stackOverflow 0x0200#16 (some 0x2300#16) t && (t.sp == 16)) = true := by decide

/-- C13 -/
theorem test_seVxKk : after (run 0x3342 (regs [(3, 0x42#8)])) (fun t => t.pc == 0x0204#16) = true := by decide

/-- C14 -/
theorem test_seVxKk_not : after (run 0x3342 (regs [(3, 0x41#8)])) (fun t => t.pc == 0x0202#16) = true := by decide

/-- C15 -/
theorem test_sneVxKk : after (run 0x4342 (regs [(3, 0x41#8)])) (fun t => t.pc == 0x0204#16) = true := by decide

/-- C16 -/
theorem test_sneVxKk_not : after (run 0x4342 (regs [(3, 0x42#8)])) (fun t => t.pc == 0x0202#16) = true := by decide

/-- C17 -/
theorem test_seVxVy : after (run 0x5120 (regs [(1, 0x07#8), (2, 0x07#8)])) (fun t => t.pc == 0x0204#16) = true := by decide

/-- C18 -/
theorem test_seVxVy_not : after (run 0x5120 (regs [(1, 0x07#8), (2, 0x08#8)])) (fun t => t.pc == 0x0202#16) = true := by decide

/-- C20 -/
theorem test_sneVxVy : after (run 0x9120 (regs [(1, 0x07#8), (2, 0x08#8)])) (fun t => t.pc == 0x0204#16) = true := by decide

/-- C21 -/
theorem test_sneVxVy_same : after (run 0x9110 (regs [(1, 0x07#8)])) (fun t => t.pc == 0x0202#16) = true := by decide

/-- C11 -/
theorem test_jpV0 : after (run 0xB123 (regs [(0, 0xFF#8)])) (fun t => t.pc == 0x0222#16) = true := by decide

/-- C12 -/
theorem test_jpV0_unmasked : after (run 0xBFFF (regs [(0, 0xFF#8)])) (fun t => (t.pc == 0x10FE#16) && !t.halted) = true := by decide

/-- S1a -/
theorem test_ldVxKk : after (run 0x6A2F State.reset) (has [(0xA, 0x2F#8)] 0x0202#16) = true := by decide

/-- S2 -/
theorem test_addVxKk_wraps : after (run 0x7101 (regs [(1, 0xFF#8), (0xF, 0x5A#8)])) (has [(1, 0x00#8), (0xF, 0x5A#8)] 0x0202#16) = true := by decide

/-- A4 -/
theorem test_ldVxVy : after (run 0x8120 (regs [(2, 0x99#8)])) (has [(1, 0x99#8), (2, 0x99#8)] 0x0202#16) = true := by decide

/-- A5 -/
theorem test_or_keeps_flag : after (run 0x8121 (regs [(1, 0x0F#8), (2, 0xF0#8), (0xF, 0x33#8)])) (has [(1, 0xFF#8), (0xF, 0x33#8)] 0x0202#16) = true := by decide

/-- A6 -/
theorem test_and : after (run 0x8122 (regs [(1, 0x3C#8), (2, 0x0F#8)])) (has [(1, 0x0C#8), (0xF, 0x00#8)] 0x0202#16) = true := by decide

/-- A7 -/
theorem test_xor : after (run 0x8123 (regs [(1, 0x3C#8), (2, 0x0F#8)])) (has [(1, 0x33#8), (0xF, 0x00#8)] 0x0202#16) = true := by decide

/-- A10 -/
theorem test_addVxVy_flag_last : after (run 0x8F14 (regs [(1, 0xF5#8), (0xF, 0x10#8)])) (has [(0xF, 0x01#8), (1, 0xF5#8)] 0x0202#16) = true := by decide

/-- A11 -/
theorem test_addVxVy_reads_old_flag : after (run 0x81F4 (regs [(1, 0x10#8), (0xF, 0x01#8)])) (has [(1, 0x11#8), (0xF, 0x00#8)] 0x0202#16) = true := by decide

/-- S6 -/
theorem test_sub_borrow : after (run 0x8125 (regs [(1, 0x03#8), (2, 0x05#8)])) (has [(1, 0xFE#8), (0xF, 0x00#8)] 0x0202#16) = true := by decide

/-- A12 -/
theorem test_sub_equal : after (run 0x8115 (regs [(1, 0x42#8)])) (has [(1, 0x00#8), (0xF, 0x01#8)] 0x0202#16) = true := by decide

/-- A15 -/
theorem test_shr_ignores_y : after (run 0x8126 (regs [(1, 0x80#8), (2, 0xFF#8)])) (has [(1, 0x40#8), (2, 0xFF#8), (0xF, 0x00#8)] 0x0202#16) = true := by decide

/-- A14 -/
theorem test_shr_lost_bit : after (run 0x8106 (regs [(1, 0x05#8)])) (has [(1, 0x02#8), (0xF, 0x01#8)] 0x0202#16) = true := by decide

/-- A17 -/
theorem test_subn : after (run 0x8127 (regs [(1, 0x03#8), (2, 0x05#8)])) (has [(1, 0x02#8), (0xF, 0x01#8)] 0x0202#16) = true := by decide

/-- A18 -/
theorem test_subn_borrow : after (run 0x8127 (regs [(1, 0x05#8), (2, 0x03#8)])) (has [(1, 0xFE#8), (0xF, 0x00#8)] 0x0202#16) = true := by decide

/-- A20 -/
theorem test_shl_lost_bit : after (run 0x810E (regs [(1, 0x81#8)])) (has [(1, 0x02#8), (0xF, 0x01#8)] 0x0202#16) = true := by decide

/-- A21 -/
theorem test_shl_ignores_y : after (run 0x81EE (regs [(1, 0x40#8)])) (has [(1, 0x80#8), (0xF, 0x00#8)] 0x0202#16) = true := by decide

/-- A23 -/
theorem test_rnd_masks_the_draw : after (run 0xC30F { State.reset with draws := [0xB7#8] }) (fun t => has [(3, 0x07#8)] 0x0202#16 t && (t.draws == [])) = true := by decide

/-- A24: the mask 00 leaves 00 whatever the free draw is; the draw is used up. -/
theorem test_rnd_free_draw : ∃ t, run 0xC300 State.reset = .next t ∧ readV t 3 = 0x00#8 ∧ t.drawCount = 1 :=
  ⟨_, rfl, BitVec.and_zero, rfl⟩

/-- M1 -/
theorem test_ldI : after (run 0xA2F0 State.reset) (fun t => t.i == 0x02F0#16) = true := by decide

/-- M3 -/
theorem test_addIVx_wraps : after (run 0xF21E { regs [(2, 0xFF#8)] with i := 0x0F80#16 }) (fun t => (t.i == 0x007F#16) && (readV t 0xF == 0x00#8)) = true := by decide

/-- M6 -/
theorem test_ldFVx_masks : after (run 0xF029 (regs [(0, 0x1A#8)])) (fun t => t.i == 0x0082#16) = true := by decide

/-- M11 -/
theorem test_ldBVx_top_of_memory : after (run 0xF033 { regs [(0, 0x7B#8)] with i := 0x0FFD#16 }) (fun t => (t.mem.readBytes 0xFFD 3 == [0x01#8, 0x02#8, 0x03#8]) && (t.i == 0x0FFD#16)) = true := by decide

/-- M12 -/
theorem test_ldBVx_out_of_bounds : after (run 0xF033 { regs [(0, 0x7B#8)] with i := 0x0FFE#16 }) (fun t => faultIs .dataOutOfBounds 0x0200#16 (some 0xF033#16) t && (t.mem.readBytes 0xFFE 2 == [0x00#8, 0x00#8])) = true := by decide

/-- M13 -/
theorem test_ldMemVx : after (run 0xF255 { regs [(0, 0x11#8), (1, 0x22#8), (2, 0x33#8)] with i := 0x0400#16 }) (fun t => (t.mem.readBytes 0x400 4 == [0x11#8, 0x22#8, 0x33#8, 0x00#8]) && (t.i == 0x0400#16)) = true := by decide

/-- M15, with V0 = 1 to see that nothing is written -/
theorem test_ldMemVx_out_of_bounds : after (run 0xFF55 { regs [(0, 0x01#8)] with i := 0x0FF1#16 }) (fun t => faultIs .dataOutOfBounds 0x0200#16 (some 0xFF55#16) t && (t.mem.read 0xFF1 == 0x00#8)) = true := by decide

/-- M16 -/
theorem test_ldVxMem : after (run 0xF265 { store (regs [(3, 0x77#8)]) 0x300 [0x02#8, 0x05#8, 0x04#8] with i := 0x0300#16 }) (fun t => has [(0, 0x02#8), (1, 0x05#8), (2, 0x04#8), (3, 0x77#8)] 0x0202#16 t && (t.i == 0x0300#16)) = true := by decide

/-- M19 -/
theorem test_ldVxMem_out_of_bounds : after (run 0xF165 { State.reset with i := 0x0FFF#16 }) (faultIs .dataOutOfBounds 0x0200#16 (some 0xF165#16)) = true := by decide

/-- T1 -/
theorem test_ldVxDt : after (run 0xF507 { State.reset with dt := 0x3C#8 }) (has [(5, 0x3C#8)] 0x0202#16) = true := by decide

/-- T2 -/
theorem test_ldDtVx : after (run 0xF515 (regs [(5, 0x3C#8)])) (fun t => (t.dt == 0x3C#8) && (t.st == 0x00#8)) = true := by decide

/-- T3 -/
theorem test_ldStVx : after (run 0xF218 (regs [(2, 0x05#8)])) (fun t => (t.st == 0x05#8) && (t.dt == 0x00#8)) = true := by decide

/-- D7: the coordinates are read before VF is written -/
theorem test_drw_reads_before_flag : after (run 0xDFF1 { regs [(0xF, 0x3C#8)] with i := 0x0050#16 }) (fun t => getPixel t.fb 28 60 && getPixel t.fb 28 63 && !getPixel t.fb 28 59 && !getPixel t.fb 28 0 && (readV t 0xF == 0x00#8)) = true := by decide

/-- D10 -/
theorem test_drw_collides : after (run 0xD011 { store State.reset 0x300 [0x80#8] with i := 0x0300#16, fb := flipPixel State.reset.fb 0 0 }) (fun t => !getPixel t.fb 0 0 && (readV t 0xF == 0x01#8) && t.dirty) = true := by decide

/-- K3 -/
theorem test_skp_masks_and_keeps_key : after (run 0xE19E { regs [(1, 0x13#8)] with keys := State.reset.keys.set 3 true }) (fun t => (t.pc == 0x0204#16) && t.keys[3]) = true := by decide

/-- K2 -/
theorem test_skp_not : after (run 0xE19E (regs [(1, 0x05#8)])) (fun t => t.pc == 0x0202#16) = true := by decide

/-- K4 -/
theorem test_sknp : after (run 0xE1A1 (regs [(1, 0x05#8)])) (fun t => t.pc == 0x0204#16) = true := by decide

/-- K5 -/
theorem test_sknp_pressed : after (run 0xE1A1 { regs [(1, 0x13#8)] with keys := State.reset.keys.set 3 true }) (fun t => t.pc == 0x0202#16) = true := by decide

/-- S11 -/
theorem test_ldVxK_lowest : after (run 0xF30A { State.reset with keys := (State.reset.keys.set 7 true).set 9 true }) (has [(3, 0x07#8)] 0x0202#16) = true := by decide

/-- S10 -/
theorem test_ldVxK_waits : after (run 0xF30A (regs [(3, 0x44#8)])) (fun t => has [(3, 0x44#8)] 0x0200#16 t && (t.opcodeReg == 0xF30A#16)) = true := by decide

/-! ## Fetch, faults and the operations of the environment -/

/-- E1 -/
theorem test_reset_fetches_illegal_word : after (step State.reset) (fun t => faultIs .illegalOpcode 0x0200#16 (some 0x0000#16) t && (t.opcodeReg == 0x0000#16)) = true := by decide

/-- E11 -/
theorem test_fetch_out_of_bounds : after (step { State.reset with pc := 0x0FFF#16, opcodeReg := 0x1234#16 }) (fun t => faultIs .fetchOutOfBounds 0x0FFF#16 none t && (t.opcodeReg == 0x1234#16)) = true := by decide

/-- E14 -/
theorem test_odd_pc : after (run 0x6077 { State.reset with pc := 0x0201#16 }) (has [(0, 0x77#8)] 0x0203#16) = true := by decide

/-- S13 -/
theorem test_tick_stops_at_zero : after (step { State.reset with st := 0x02#8, schedule := queue [.tickTimers] }) (fun t => (t.dt == 0x00#8) && (t.st == 0x01#8)) = true := by decide

/-- T7 -/
theorem test_tick_halted : after (step { halted0123 with dt := 0x05#8, schedule := queue [.tickTimers] }) (fun t => t.dt == 0x05#8) = true := by decide

/-- L4 -/
theorem test_load_halted : after (step { halted0123 with schedule := queue [.load [0x60#8, 0x01#8]] }) (fun t => t.halted && (t.mem == [])) = true := by decide

/-- L5, L4: from a halted state reset gives the reset state. -/
theorem test_reset_halted : step { halted0123 with schedule := queue [.reset] } = .next State.reset := rfl

/-- L6 and S12a -/
theorem test_load_keeps_state_restores_font : after (step { store (regs [(1, 0x33#8)]) 0x050 [0x00#8] with schedule := queue [.load [0x60#8, 0x01#8]] }) (fun t => has [(1, 0x33#8)] 0x0200#16 t && (t.mem.readBytes 0x200 2 == [0x60#8, 0x01#8]) && (t.mem.read 0x050 == 0xF0#8)) = true := by decide +kernel

/-- 60_exceptions.md R245, R273 -/
theorem test_set_key_while_halted : after (step { halted0123 with schedule := queue [.setKey 9 true] }) (fun t => t.halted && t.keys[9] && !t.keys[8]) = true := by decide

/-- 60_exceptions.md R272 -/
theorem test_ack_render : after (step { State.reset with dirty := true, schedule := queue [.ackRender, .reset] }) (fun t => !t.dirty && (t.schedule == queue [.reset])) = true := by decide

/-! ## Schedules, draws and the launch premises (60_exceptions.md R271; 70_reset_and_hazards.md R305) -/

/-- R270, R271: a finite schedule at its end -/
theorem test_stop_changes_nothing : after (step { State.reset with schedule := ⟨[], .stop, 0⟩ }) (fun t => (t.pc == 0x0200#16) && !t.halted && (t.opcodeReg == 0x0000#16)) = true := by decide

/-- R271: a tick after every cycle without end, and ticks only. -/
theorem test_endless_schedules :
    Schedule.operations ⟨[], .repeating .cycle [.tickTimers], 0⟩ 5 = [.cycle, .tickTimers, .cycle, .tickTimers, .cycle] ∧
    Schedule.operations ⟨[.cycle], .repeating .tickTimers [], 0⟩ 4 = [.cycle, .tickTimers, .tickTimers, .tickTimers] ∧
    Schedule.operations ⟨[.cycle, .reset], .stop, 0⟩ 9 = [.cycle, .reset] := by decide

/-- R271: after its listed operations a free schedule holds whatever the host requests. -/
theorem test_free_schedule :
    Schedule.operations ⟨[.cycle], .free, 3⟩ 3 = [.cycle, Config.hostOp 3, Config.hostOp 4] := rfl

/-- R305: two ticks between the first and the second cycle, none before the first. -/
theorem test_ticks : Ticks (queue [.cycle, .tickTimers, .setKey 1 true, .tickTimers, .cycle, .tickTimers]) 1 2 2 ∧
    Ticks (queue [.cycle, .tickTimers]) 0 1 0 := ⟨⟨5, by decide, by decide⟩, ⟨2, by decide, by decide⟩⟩

/-- R305: each executed Cxkk takes one value, an unused value does not count, a skipped Cxkk takes none. -/
theorem test_draws_of_a_run :
    drawsIn 4 { store State.reset 0x200 [0xC0#8, 0xFF#8, 0x30#8, 0x11#8, 0xC1#8, 0xFF#8, 0xC2#8, 0x0F#8] with
      draws := [0x11#8, 0x22#8, 0x33#8] } = [0x11#8, 0x22#8] := by decide

/-- S12: the glyph 0 at the font base. -/
theorem test_font_glyph_zero : State.reset.mem.readBytes 0x050 5 = [0xF0#8, 0x90#8, 0x90#8, 0x90#8, 0xF0#8] := by decide

/-- Writing what an unlisted address reads as lists nothing; the order of two writes does not show. -/
theorem test_memory_canonical :
    ((State.reset.mem.write 0x300 0x11#8).write 0x300 0x00#8 = []) ∧
    (State.reset.mem.write 0x301 0x01#8).write 0x300 0x02#8 = [(0x300, 0x02#8), (0x301, 0x01#8)] := by decide

theorem test_reset_memory_wf : State.reset.mem.wf := by decide

/-- The codes of 60_exceptions.md R241. -/
theorem test_cause_codes :
    [Cause.noCause, .illegalOpcode, .stackOverflow, .stackUnderflow, .fetchOutOfBounds, .dataOutOfBounds, .loadOutOfBounds].map causeCode
      = [0, 1, 2, 3, 4, 5, 6] := by decide

/-- The host steps an operation pending before the word away, and a halted core is made to run. -/
theorem test_place_word : after (run 0x6A2F { halted0123 with pc := 0x1000#16, schedule := queue [.tickTimers] })
    (fun t => has [(0xA, 0x2F#8)] 0x0202#16 t && (t.schedule == queue [.tickTimers])) = true := by decide

/-! ## Witnesses: the hypotheses of every statement that has any are met together, at the ends of their ranges -/

/-- Not halted, the next operation a cycle, at the highest address an instruction can be fetched from. -/
def atTop (op : Word) (s : State) : State := { store s 0xFFE (wordBytes op) with pc := 0x0FFE#16 }

/-- What the statements about a cycle assume, and that the cycle answers a next state that passes the check. -/
def CycleWitness (s : State) (rest : Schedule) (p : State → Bool) : Prop :=
  CycleNext s rest ∧ s.halted = false ∧ s.pc.toNat ≤ 0xFFE ∧ after (step s) p = true

theorem witness_DecodeFollowsOpcodeTable :
    decodeWord 0x81EE#16 = .ok (.shl 1 0xE) ∧
    (⟨"SHL", 0xF00F#16, 0x800E#16⟩ : OpcodeRow) ∈ opcodeTable ∧ 0x81EE#16 &&& 0xF00F#16 = 0x800E#16 := by decide

theorem witness_EncodeDecodeRoundTrip : decodeWord 0xDFFF#16 = .ok (.drw 0xF 0xF 0xF) := by decide

theorem witness_StepRunsDecodedInstruction :
    CycleWitness (atTop 0x6A2F#16 State.reset) (queue []) (has [(0xA, 0x2F#8)] 0x1000#16) ∧
    decodeBytes [(atTop 0x6A2F#16 State.reset).mem.read 0xFFE, (atTop 0x6A2F#16 State.reset).mem.read 0xFFF]
      = .ok (.ldVxKk 0xA 0x2F#8, []) := by
  refine ⟨⟨rfl, rfl, ?_, ?_⟩, ?_⟩ <;> decide

theorem witness_StepRunsDecodedInstruction_scheduled :
    CycleWitness { store State.reset 0x200 [0x6A#8, 0x2F#8] with schedule := queue [.cycle, .reset] } (queue [.reset])
      (fun t => has [(0xA, 0x2F#8)] 0x0202#16 t && (t.schedule == queue [.reset])) := by
  refine ⟨rfl, rfl, ?_, ?_⟩ <;> decide

theorem witness_IllegalWordTakesFault :
    CycleWitness (atTop 0x8008#16 State.reset) (queue []) (faultIs .illegalOpcode 0x0FFE#16 (some 0x8008#16)) ∧
    legalWord (fetchWord (atTop 0x8008#16 State.reset).mem 0xFFE) = false := by
  refine ⟨⟨rfl, rfl, ?_, ?_⟩, ?_⟩ <;> decide

theorem witness_FetchAboveMemoryTakesFault :
    (CycleNext { State.reset with pc := 0x0FFF#16 } (queue []) ∧ (0x0FFF#16 : Word).toNat > 0xFFE ∧
      after (step { State.reset with pc := 0x0FFF#16 }) (faultIs .fetchOutOfBounds 0x0FFF#16 none) = true) ∧
    (CycleNext { State.reset with pc := 0x10FE#16, schedule := queue [.cycle] } (queue []) ∧ (0x10FE#16 : Word).toNat > 0xFFE ∧
      after (step { State.reset with pc := 0x10FE#16, schedule := queue [.cycle] }) (faultIs .fetchOutOfBounds 0x10FE#16 none) = true) := by
  refine ⟨⟨rfl, ?_, ?_⟩, ⟨rfl, ?_, ?_⟩⟩ <;> decide

theorem witness_HaltedOperationsChangeNothing :
    halted0123.halted = true ∧ OperationNext halted0123 .cycle (queue []) ∧
    ∀ op ∈ [HostOp.cycle, .tickTimers, .load [0x60#8]],
      after (step { halted0123 with dt := 0x01#8, schedule := queue [op] })
        (fun t => t.halted && (t.dt == 0x01#8) && (t.mem == []) && (t.pc == 0x0200#16)) = true := by
  refine ⟨rfl, rfl, ?_⟩
  decide

theorem witness_HaltedUntilReset :
    halted0123.halted = true ∧ (∀ rest, ¬ OperationNext { halted0123 with schedule := queue [.setKey 5 true] } .reset rest) ∧
    after (step { halted0123 with schedule := queue [.setKey 5 true] }) (fun t => t.halted && t.keys[5]) = true := by
  refine ⟨rfl, ?_, ?_⟩
  · simp [OperationNext, queue]
  · decide

/-- Each of the five causes a cycle can take. -/
theorem witness_FaultsArePrecise :
    CycleWitness (atTop 0xF000#16 State.reset) (queue []) (faultIs .illegalOpcode 0x0FFE#16 (some 0xF000#16)) ∧
    CycleWitness (atTop 0x2300#16 fullStack) (queue []) (faultIs .stackOverflow 0x0FFE#16 (some 0x2300#16)) ∧
    CycleWitness (atTop 0x00EE#16 State.reset) (queue []) (faultIs .stackUnderflow 0x0FFE#16 (some 0x00EE#16)) ∧
    CycleWitness (atTop 0xF033#16 { State.reset with i := 0x0FFE#16 }) (queue [])
      (faultIs .dataOutOfBounds 0x0FFE#16 (some 0xF033#16)) ∧
    after (step { State.reset with pc := 0x0FFF#16 }) (faultIs .fetchOutOfBounds 0x0FFF#16 none) = true := by
  refine ⟨⟨rfl, rfl, ?_, ?_⟩, ⟨rfl, rfl, ?_, ?_⟩, ⟨rfl, rfl, ?_, ?_⟩,
    ⟨rfl, rfl, ?_, ?_⟩, ?_⟩ <;> decide

/-- A state with memory listed, a held return address at its bound, `I` and `pc` at their bounds. -/
def busyState : State :=
  { atTop 0x3000#16 State.reset with i := 0x0FFF#16, sp := 1, stack := State.reset.stack.set 0 0x1000#16 }

/-- A finite schedule at its end, one that goes on for ever and the free one, whatever it holds. -/
theorem witness_EveryStepAnswersNext :
    Schedule.next ⟨[], .stop, 0⟩ = none ∧
    Schedule.next ⟨[], .free, 7⟩ = some (Config.hostOp 7, ⟨[], .free, 8⟩) := by
  exact ⟨rfl, rfl⟩

theorem witness_StepKeepsInvariant : CoreInv busyState ∧ after (step busyState) (fun t => t.pc == 0x1002#16) = true := by
  refine ⟨⟨?_, ?_, ?_, ?_, ?_⟩, ?_⟩
  · decide
  · decide
  · decide
  · decide
  · simp [FaultCoherent, busyState, atTop, store, State.reset]
  · decide

theorem witness_RetPopsReturnAddress :
    (0x0202#16 : Word) = 0x0200#16 + 2 ∧
    (∀ n ∈ [1, 16], (Fin.ofNat 17 n).val ≠ 0 ∧
      after (exec .ret { fullStack with pc := 0x0202#16, sp := Fin.ofNat 17 n }) (fun t => (t.pc == 0x0202#16) && (t.sp.val + 1 == n)) = true) ∧
    after (exec .ret { State.reset with pc := 0x0202#16, opcodeReg := 0x00EE#16 })
      (faultIs .stackUnderflow 0x0200#16 (some 0x00EE#16)) = true := by decide

theorem witness_CallPushesAndJumps :
    (0x0202#16 : Word) = 0x0200#16 + 2 ∧
    (∀ n ∈ [0, 15], (Fin.ofNat 17 n).val < 16 ∧
      after (exec (.call 0x300#12) { State.reset with pc := 0x0202#16, sp := Fin.ofNat 17 n })
        (fun t => (t.stack[Fin.ofNat 16 n] == 0x0202#16) && (t.sp.val == n + 1)) = true) ∧
    fullStack.sp.val = 16 ∧
    after (exec (.call 0x300#12) { fullStack with pc := 0x0202#16 }) (fun t => t.halted && (t.pc == 0x0200#16)) = true := by decide

theorem witness_StackFaultRecords :
    ({ fullStack with pc := 0x0FFE#16 } : State).pc = 0x0FFC#16 + 2 ∧ fullStack.sp.val = 16 ∧
    ({ State.reset with pc := 0x0000#16 } : State).pc = 0xFFFE#16 + 2 ∧ State.reset.sp.val = 0 := by decide

theorem witness_CallThenRetReturns :
    ({ fullStack with sp := 15 } : State).sp.val < 16 ∧ State.reset.sp.val < 16 := by decide

theorem witness_RndMasksFreshDraw :
    State.reset.draws = [] ∧ ({ State.reset with draws := [0xB7#8] } : State).draws = 0xB7#8 :: [] ∧
    after (exec (.rnd 3 0x0F#8) { State.reset with draws := [0xB7#8] }) (fun t => readV t 3 == 0x07#8) = true := by decide

/-- A cycle that executes Cxkk, and one that does not. -/
theorem witness_OnlyExecutionsOfRndTakeADraw :
    executesRandom { atTop 0xC30F#16 State.reset with draws := [0xB7#8, 0x5A#8] } = true ∧
    after (step { atTop 0xC30F#16 State.reset with draws := [0xB7#8, 0x5A#8] }) (fun t => t.draws == [0x5A#8]) = true ∧
    executesRandom (atTop 0x6A2F#16 State.reset) = false ∧ executesRandom halted0123 = false ∧
    executesRandom { State.reset with pc := 0x0FFF#16 } = false := by decide

theorem witness_BcdStoresDigits :
    ({ State.reset with i := 0x0FFD#16 } : State).i.toNat + 2 ≤ 0xFFF ∧
    after (exec (.ldBVx 0) { regs [(0, 0xFF#8)] with i := 0x0FFD#16 })
      (fun t => t.mem.readBytes 0xFFD 3 == [0x02#8, 0x05#8, 0x05#8]) = true := by decide

theorem witness_StoreRegistersToMemory :
    ({ State.reset with i := 0x0FF0#16 } : State).i.toNat + (0xF : Reg).val ≤ 0xFFF ∧
    after (exec (.ldMemVx 0xF) { regs [(0xF, 0x1F#8)] with i := 0x0FF0#16 }) (fun t => t.mem.read 0xFFF == 0x1F#8) = true := by decide

theorem witness_LoadRegistersFromMemory :
    ({ State.reset with i := 0x0FFF#16 } : State).i.toNat + (0 : Reg).val ≤ 0xFFF ∧
    after (exec (.ldVxMem 0) { store State.reset 0xFFF [0xAB#8] with i := 0x0FFF#16 }) (fun t => readV t 0 == 0xAB#8) = true := by decide

theorem witness_DataAboveMemoryTakesFault :
    State.reset.pc = 0x01FE#16 + 2 ∧ (0x0FFE#16 : Word).toNat + 2 > 0xFFF ∧ (0x0FF1#16 : Word).toNat + (0xF : Reg).val > 0xFFF ∧
    (5 : Fin 16).val > 0 ∧ (0x0FFC#16 : Word).toNat + (5 : Fin 16).val - 1 > 0xFFF ∧
    after (exec (.drw 0 0 5) { State.reset with i := 0x0FFC#16, opcodeReg := 0xD005#16 })
      (faultIs .dataOutOfBounds 0x01FE#16 (some 0xD005#16)) = true := by decide

theorem witness_StoreThenLoadRestores :
    ({ State.reset with i := 0x0FF0#16 } : State).i.toNat + (0xF : Reg).val ≤ 0xFFF ∧
    ({ State.reset with i := 0x0FFF#16 } : State).i.toNat + (0 : Reg).val ≤ 0xFFF := by decide

theorem witness_StoredCodeIsFetched :
    (0x0FF0#16 : Word).toNat + (0xF : Reg).val ≤ 0xFFF ∧ CycleNext State.reset (queue []) ∧ State.reset.halted = false ∧
    (0x0FFE#16 : Word).toNat = (0x0FF0#16 : Word).toNat + (0xE : Reg).val ∧ (0xF : Reg).val = (0xE : Reg).val + 1 ∧
    (0xF : Reg) ≤ 0xF ∧ decodeWord (composeWord (readV (regs [(0xE, 0x12#8), (0xF, 0x0A#8)]) 0xE)
      (readV (regs [(0xE, 0x12#8), (0xF, 0x0A#8)]) 0xF)) = .ok (.jp 0x20A#12) := by
  refine ⟨?_, rfl, ?_, ?_, ?_, ?_, ?_⟩ <;> decide

theorem witness_TickDecrementsTimers :
    OperationNext { State.reset with schedule := queue [.tickTimers] } .tickTimers (queue []) ∧ State.reset.halted = false ∧
    halted0123.halted = true ∧
    after (step { State.reset with dt := 0x01#8, st := 0xFF#8, schedule := queue [.tickTimers] })
      (fun t => (t.dt == 0x00#8) && (t.st == 0xFE#8)) = true := by
  refine ⟨rfl, rfl, rfl, ?_⟩
  decide

theorem witness_CyclesNeverDecayTimers :
    CycleWitness (atTop 0xF515#16 (regs [(5, 0x3C#8)])) (queue []) (fun t => t.dt != 0x00#8) ∧
    CycleWitness (atTop 0xF518#16 (regs [(5, 0x3C#8)])) (queue []) (fun t => t.st != 0x00#8) := by
  refine ⟨⟨rfl, rfl, ?_, ?_⟩, ⟨rfl, rfl, ?_, ?_⟩⟩ <;> decide

/-- Bounds: no row at any `I`, and the last row at 0xFFF. -/
theorem witness_DrawXorsSpritePixelwise :
    ((0 : Fin 16).val = 0 ∨ (0xFFFF#16 : Word).toNat + (0 : Fin 16).val - 1 ≤ 0xFFF) ∧
    ((5 : Fin 16).val = 0 ∨ (0x0FFB#16 : Word).toNat + (5 : Fin 16).val - 1 ≤ 0xFFF) ∧
    after (exec (.drw 0 0 0) { regs [(0xF, 0x07#8)] with i := 0xFFFF#16 })
      (fun t => !t.dirty && (readV t 0xF == 0x00#8)) = true ∧
    after (exec (.drw 0 0 5) { store (store State.reset 0xFFB [0x80#8]) 0xFFF [0x01#8] with i := 0x0FFB#16 })
      (fun t => getPixel t.fb 0 0 && getPixel t.fb 4 7 && !getPixel t.fb 1 0 && t.dirty && (readV t 0xF == 0x00#8)) = true := by decide

/-- A sprite whose one pixel was set: the second draw sets it again without a collision. -/
theorem witness_DrawTwiceRestoresScreen :
    ((1 : Fin 16).val = 0 ∨ (0x0300#16 : Word).toNat + (1 : Fin 16).val - 1 ≤ 0xFFF) ∧
    (∀ r : Fin 32, ∀ c : Fin 64, getPixel State.reset.fb r c = false) ∧
    after (exec (.drw 0 0 1) { store State.reset 0x300 [0x80#8] with i := 0x0300#16 })
      (fun t => after (exec (.drw 0 0 1) t) (fun u => !getPixel u.fb 0 0 && (readV u 0xF == 0x01#8))) = true ∧
    after (exec (.drw 0 0 1) { store State.reset 0x300 [0x80#8] with i := 0x0300#16, fb := flipPixel State.reset.fb 0 0 })
      (fun t => after (exec (.drw 0 0 1) t) (fun u => getPixel u.fb 0 0 && (readV u 0xF == 0x00#8))) = true := by
  refine ⟨?_, ?_, ?_, ?_⟩
  · decide
  · intro r c
    simp [getPixel, State.reset]
  · decide
  · decide

theorem witness_KeySkips :
    (3 : Fin 16).val = (readV (regs [(1, 0x13#8)]) 1).toNat % 16 ∧ (0xF : Fin 16).val = (readV (regs [(1, 0xFF#8)]) 1).toNat % 16 := by decide

theorem witness_KeyWaitCapturesLowestKey :
    (((State.reset.keys.set 7 true).set 9 true)[(7 : Fin 16)] = true ∧
      ∀ j : Fin 16, j < 7 → ((State.reset.keys.set 7 true).set 9 true)[j] = false) ∧
    ((State.reset.keys.set 15 true)[(15 : Fin 16)] = true ∧
      ∀ j : Fin 16, j < 15 → (State.reset.keys.set 15 true)[j] = false) ∧
    ∀ k : Fin 16, State.reset.keys[k] = false := by decide

theorem witness_KeyWaitSpins :
    CycleWitness (atTop 0xF30A#16 State.reset) (queue []) (fun t => t.pc == 0x0FFE#16) ∧
    decodeWord (fetchWord (atTop 0xF30A#16 State.reset).mem 0xFFE) = .ok (.ldVxK 3) ∧
    ∀ k : Fin 16, (atTop 0xF30A#16 State.reset).keys[k] = false := by
  refine ⟨⟨rfl, rfl, ?_, ?_⟩, ?_, ?_⟩ <;> decide

/-- A cycle that changes memory by each store, one that changes pixels by each display instruction. -/
theorem witness_OnlyStoresAndDrawsWriteOut :
    CycleWitness (atTop 0xF033#16 (regs [(0, 0x01#8)])) (queue []) (fun t => t.mem.read 0x002 != 0x00#8) ∧
    CycleWitness (atTop 0xF055#16 (regs [(0, 0x01#8)])) (queue []) (fun t => t.mem.read 0x000 != 0x00#8) ∧
    CycleWitness (atTop 0x00E0#16 { State.reset with fb := flipPixel State.reset.fb 31 63, dirty := true }) (queue [])
      (fun t => !getPixel t.fb 31 63 && t.dirty) ∧
    CycleWitness (atTop 0xD001#16 { State.reset with i := 0x0050#16 }) (queue []) (fun t => getPixel t.fb 0 0) := by
  refine ⟨⟨rfl, rfl, ?_, ?_⟩, ⟨rfl, rfl, ?_, ?_⟩, ⟨rfl, rfl, ?_, ?_⟩,
    ⟨rfl, rfl, ?_, ?_⟩⟩ <;> decide

/-- A cycle that changes `I` by each of its three writers, and one that changes the stack by each of its two. -/
theorem witness_OnlyNamedInstructionsWriteIndexAndStack :
    CycleWitness (atTop 0xAFFF#16 State.reset) (queue []) (fun t => t.i != 0x0000#16) ∧
    CycleWitness (atTop 0xF01E#16 (regs [(0, 0x01#8)])) (queue []) (fun t => t.i != 0x0000#16) ∧
    CycleWitness (atTop 0xF029#16 State.reset) (queue []) (fun t => t.i != 0x0000#16) ∧
    CycleWitness (atTop 0x2300#16 State.reset) (queue []) (fun t => (t.sp != 0) && (t.stack != State.reset.stack)) ∧
    CycleWitness (atTop 0x00EE#16 fullStack) (queue []) (fun t => t.sp != 16) := by
  refine ⟨⟨rfl, rfl, ?_, ?_⟩, ⟨rfl, rfl, ?_, ?_⟩, ⟨rfl, rfl, ?_, ?_⟩,
    ⟨rfl, rfl, ?_, ?_⟩, ⟨rfl, rfl, ?_, ?_⟩⟩ <;> decide

theorem witness_OnlyFlagWritersChangeVF :
    CycleWitness (atTop 0x8124#16 (regs [(1, 0xFF#8), (2, 0x01#8)])) (queue []) (fun t => readV t 0xF != 0x00#8) ∧
    CycleWitness (atTop 0x6F77#16 State.reset) (queue []) (fun t => readV t 0xF != 0x00#8) := by
  refine ⟨⟨rfl, rfl, ?_, ?_⟩, ⟨rfl, rfl, ?_, ?_⟩⟩ <;> decide

theorem witness_OutputsAreNotReadBack :
    CycleWitness (atTop 0x6A2F#16 State.reset) (queue []) (fun t => t.opcodeReg == 0x6A2F#16) := by
  refine ⟨rfl, rfl, ?_, ?_⟩ <;> decide

/-- Parked at the lowest and the highest address, under each kind of operation the statement admits. -/
theorem witness_ParkedStaysParked :
    Parked (store State.reset 0x200 [0x12#8, 0x00#8]) ∧ Parked (atTop 0x1FFE#16 State.reset) ∧
    (∀ rest, ¬ OperationNext (atTop 0x1FFE#16 State.reset) .reset rest) ∧
    (∀ image rest, ¬ OperationNext (atTop 0x1FFE#16 State.reset) (.load image) rest) ∧
    ∀ l ∈ [[], [HostOp.cycle], [.tickTimers], [.setKey 0 true], [.ackRender]],
      after (step { atTop 0x1FFE#16 State.reset with schedule := queue l }) (fun t => t.pc == 0x0FFE#16) = true := by
  refine ⟨⟨rfl, ?_, ?_⟩, ⟨rfl, ?_, ?_⟩, ?_, ?_, ?_⟩
  · decide
  · decide
  · decide
  · decide
  · simp [OperationNext, atTop, store, State.reset]
  · simp [OperationNext, atTop, store, State.reset]
  · decide

/-- The empty image, and the two greatest lengths that do and do not fit. -/
theorem witness_LoadPlacesImage :
    OperationNext { State.reset with schedule := queue [.load []] } (.load []) (queue []) ∧ State.reset.halted = false ∧
    ([] : List Byte).length ≤ 3584 ∧ (List.replicate 3584 0x11#8).length ≤ 3584 := by
  exact ⟨rfl, rfl, Nat.zero_le _, List.length_replicate.le⟩

theorem witness_OversizedLoadTakesFault :
    OperationNext { State.reset with schedule := queue [.load (List.replicate 3585 0x11#8)] }
      (.load (List.replicate 3585 0x11#8)) (queue []) ∧ State.reset.halted = false ∧ (List.replicate 3585 0x11#8).length > 3584 := by
  refine ⟨rfl, rfl, ?_⟩
  rw [List.length_replicate]
  decide

theorem witness_ResetOperationResetsCore :
    OperationNext { busyState with schedule := queue [.reset, .cycle] } .reset (queue [.cycle]) := rfl

theorem witness_KeyWritesAndAcknowledgements :
    OperationNext { halted0123 with schedule := queue [.setKey 0xF true] } (.setKey 0xF true) (queue []) ∧
    OperationNext { halted0123 with schedule := queue [.ackRender] } (.ackRender) (queue []) := ⟨rfl, rfl⟩

theorem witness_LaunchFetchesImageHead :
    CleanLaunch [0x60#8, 0x01#8] (loadImage [0x60#8, 0x01#8] State.reset) ∧
    CycleNext (loadImage [0x60#8, 0x01#8] State.reset) (queue []) ∧ decodeWord (composeWord 0x60#8 0x01#8) = .ok (.ldVxKk 0 0x01#8) := by
  refine ⟨⟨by decide, ?_⟩, ?_, by decide⟩
  · generalize loadImage [0x60#8, 0x01#8] State.reset = t
    rfl
  · simp [CycleNext, OperationNext, queue, loadImage, State.reset, Config.entry, Config.memSize]

end Sys2Proof.Tests
end

section
/-! Which words decode (30_encoding.md R98): each per-nibble decoder answers an instruction exactly on the words its
selector check `legalNibble…` admits, so `decodeWord` does exactly on the legal words. -/

namespace Sys2Proof

/-! ## The selector fields as numbers -/

theorem fieldPrimary_toNat (op : Word) : (fieldPrimary op).toNat = op.toNat / 4096 := by
  have h : op.toNat < 65536 := op.isLt
  simp only [fieldPrimary, BitVec.extractLsb'_toNat, Nat.shiftRight_eq_div_pow]
  omega

theorem fieldPrimary_eq_iff (op : Word) (p : BitVec 4) : fieldPrimary op = p ↔ op.toNat / 4096 = p.toNat := by
  rw [← BitVec.toNat_inj, fieldPrimary_toNat]

theorem fieldN_eq_iff (op : Word) (n : Fin 16) : fieldN op = n ↔ op.toNat % 16 = n.val := by
  simp [Fin.ext_iff, fieldN]

theorem fieldKk_eq_iff (op : Word) (kk : Byte) : fieldKk op = kk ↔ op.toNat % 256 = kk.toNat := by
  simp [← BitVec.toNat_inj, fieldKk]

/-! ## Answering an instruction -/

/-- A chain of selector tests answers an instruction when one of its tests holds or its last branch answers one. -/
theorem exists_ok_ite (c : Prop) [Decidable c] (a : Instr) (r : Except DecodeReject Instr) :
    (∃ i, (if c then .ok a else r) = .ok i) ↔ c ∨ ∃ i, r = .ok i := by
  by_cases h : c <;> simp [h]

theorem not_exists_error_eq_ok (e : DecodeReject) : ¬ ∃ i : Instr, Except.error e = .ok i := by
  rintro ⟨i, h⟩
  cases h

/-! ## The decoder of each primary nibble that has a selector -/

theorem decode0_ok_iff (op : Word) : (∃ i, decode0 op = .ok i) ↔ legalNibble0 op = true := by
  simp only [decode0, exists_ok_ite, not_exists_error_eq_ok]
  simp [legalNibble0]

/-- The test of primary nibbles 5 and 9, whatever instruction and reason the nibble answers with. -/
theorem decode59_ok_iff (op : Word) (a : Instr) (e : DecodeReject) :
    (∃ i, (if fieldN op = 0 then Except.ok a else .error e) = .ok i) ↔ legalNibble59 op = true := by
  simp only [exists_ok_ite, not_exists_error_eq_ok, fieldN_eq_iff]
  simp [legalNibble59]

theorem decode8_ok_iff (op : Word) : (∃ i, decode8 op = .ok i) ↔ legalNibble8 op = true := by
  simp only [decode8, exists_ok_ite, not_exists_error_eq_ok, fieldN_eq_iff]
  simp [legalNibble8]

theorem decodeE_ok_iff (op : Word) : (∃ i, decodeE op = .ok i) ↔ legalNibbleE op = true := by
  simp only [decodeE, exists_ok_ite, not_exists_error_eq_ok, fieldKk_eq_iff]
  simp [legalNibbleE]

theorem decodeF_ok_iff (op : Word) : (∃ i, decodeF op = .ok i) ↔ legalNibbleF op = true := by
  simp only [decodeF, exists_ok_ite, not_exists_error_eq_ok, fieldKk_eq_iff]
  simp [legalNibbleF]

/-! ## The whole decoder -/

/-- A word decodes exactly when it is legal: both sides dispatch on the primary nibble, and agree in each of its values. -/
theorem decodeWord_ok_iff (op : Word) : (∃ i, decodeWord op = .ok i) ↔ legalWord op = true := by
  have hp : op.toNat / 4096 < 16 := by have := op.isLt; omega
  simp only [decodeWord, legalWord, fieldPrimary_eq_iff]
  generalize op.toNat / 4096 = p at hp ⊢
  interval_cases p <;>
    simp [decode0_ok_iff, decode59_ok_iff, decode8_ok_iff, decodeE_ok_iff, decodeF_ok_iff]

/-- The legal words by their primary nibble, as R98 lists them. -/
theorem legalWord_iff (op : Word) : legalWord op = true ↔
    (op.toNat / 4096 = 0x0 ∧ legalNibble0 op = true) ∨
    ((op.toNat / 4096 = 0x5 ∨ op.toNat / 4096 = 0x9) ∧ legalNibble59 op = true) ∨
    (op.toNat / 4096 = 0x8 ∧ legalNibble8 op = true) ∨
    (op.toNat / 4096 = 0xE ∧ legalNibbleE op = true) ∨
    (op.toNat / 4096 = 0xF ∧ legalNibbleF op = true) ∨
    op.toNat / 4096 ∈ [1, 2, 3, 4, 6, 7, 0xA, 0xB, 0xC, 0xD] := by
  have hp : op.toNat / 4096 < 16 := by have := op.isLt; omega
  simp only [legalWord]
  generalize op.toNat / 4096 = p at hp ⊢
  interval_cases p <;> simp

/-- Settles O5: the words that decode are the legal ones, and those are R98's list with each selector check written out. -/
theorem selectorsDecideLegality : Obligations.SelectorsDecideLegality := by
  intro op
  rw [decodeWord_ok_iff, legalWord_iff]
  simp [legalNibble0, legalNibble59, legalNibble8, legalNibbleE, legalNibbleF]

end Sys2Proof
end

section
/-! Control transfer and skips (40_control.md): what executing each of these instructions answers, an equation for each
case of it. -/

namespace Sys2Proof.Machine

/-! ## Jumps, calls and returns (R120 to R122) -/

@[simp] theorem zextAddr_toNat (nnn : Addr) : (zextAddr nnn).toNat = nnn.toNat := by
  have h : nnn.toNat < 4096 := nnn.isLt
  simp only [zextAddr, BitVec.toNat_setWidth]
  omega

/-- A fault raised by the instruction at `a` leaves the state that R242 gives for `a`. -/
theorem raise_of_pc (c : Cause) (s : State) (a : Word) (h : s.pc = a + 2) : raise c s = .next (faultedAt s c a) := by
  have ha : s.pc - 2 = a := by rw [h, BitVec.add_sub_cancel]
  rw [raise_eq, ha]
  rfl

theorem exec_ret_of_entry (s : State) (h : s.sp.val ≠ 0) :
    exec .ret s = .next { s with pc := s.stack[s.sp.val - 1]'(by omega), sp := ⟨s.sp.val - 1, by omega⟩ } := by
  simp only [exec, execRet, pop_of_entry s h]

theorem exec_ret_of_empty (s : State) (h : s.sp.val = 0) : exec .ret s = raise .stackUnderflow s := by
  simp only [exec, execRet, pop_of_empty s h]

theorem exec_jp (nnn : Addr) (s : State) : exec (.jp nnn) s = .next { s with pc := zextAddr nnn } := rfl

theorem exec_call_of_room (nnn : Addr) (s : State) (h : s.sp.val < 16) :
    exec (.call nnn) s =
      .next { s with pc := zextAddr nnn, sp := ⟨s.sp.val + 1, by omega⟩, stack := s.stack.set s.sp.val s.pc } := by
  simp only [exec, execCall, push_of_room s.pc s h]

theorem exec_call_of_full (nnn : Addr) (s : State) (h : s.sp.val = 16) :
    exec (.call nnn) s = raise .stackOverflow s := by
  simp only [exec, execCall, push_of_full s.pc s h]

/-! ## Skips (R124 to R128) -/

theorem exec_seVxKk (x : Reg) (kk : Byte) (s : State) :
    exec (.seVxKk x kk) s = .next (skipIf (readV s x == kk) s) := rfl

theorem exec_sneVxKk (x : Reg) (kk : Byte) (s : State) :
    exec (.sneVxKk x kk) s = .next (skipIf (readV s x != kk) s) := rfl

theorem exec_seVxVy (x y : Reg) (s : State) :
    exec (.seVxVy x y) s = .next (skipIf (readV s x == readV s y) s) := rfl

theorem exec_sneVxVy (x y : Reg) (s : State) :
    exec (.sneVxVy x y) s = .next (skipIf (readV s x != readV s y) s) := rfl

/-- Whatever its test, a skip changes `pc` only. -/
theorem skipIf_eq (c : Bool) (s : State) : skipIf c s = { s with pc := (skipIf c s).pc } := by cases c <;> rfl

/-- An instruction that skips on the test `c` skips exactly if the condition that `c` decides holds. -/
theorem skipsIf_of_exec {i : Instr} {c : Bool} {p : Prop} {s : State} (h : exec i s = .next (skipIf c s))
    (hc : c = true ↔ p) : SkipsIf i p s := by
  refine ⟨skipIf c s, h, fun hp => ?_, fun hp => ?_, skipIf_eq c s⟩
  · simp [hc.mpr hp]
  · simp [mt hc.mp hp]

end Sys2Proof.Machine
end

section
/-! The obligations on control transfer and skips (40_control.md). -/

namespace Sys2Proof
open Machine

/-- Settles O17: with an entry held the popped state is read off; on an empty stack RET raises the underflow. -/
theorem retPopsReturnAddress : Obligations.RetPopsReturnAddress := by
  intro s a hpc
  refine ⟨fun hsp => ⟨_, exec_ret_of_entry s hsp, ?_, ?_, rfl⟩,
    fun hsp => ⟨faultedAt s .stackUnderflow a, ?_, rfl, rfl, rfl⟩⟩
  · exact Nat.sub_add_cancel (Nat.one_le_iff_ne_zero.mpr hsp)
  · intro k hk
    simp [hk]
  · rw [exec_ret_of_empty s hsp, raise_of_pc _ s a hpc]

/-- Settles O18: the target is `nnn` zero-extended, which keeps its value. -/
theorem jpSetsPc : Obligations.JpSetsPc :=
  fun nnn s => ⟨_, exec_jp nnn s, zextAddr_toNat nnn, rfl⟩

/-- Settles O19: with room the pushed state is read off, its stack differing at `sp` alone; on a full stack CALL raises the
overflow. -/
theorem callPushesAndJumps : Obligations.CallPushesAndJumps := by
  intro nnn s a hpc
  refine ⟨fun hsp => ⟨_, exec_call_of_room nnn s hsp, zextAddr_toNat nnn, rfl, ?_, ?_, rfl⟩,
    fun hsp => ⟨faultedAt s .stackOverflow a, ?_, rfl, rfl, rfl⟩⟩
  · intro k hk
    simp [hk, hpc]
  · intro k hk
    simp [hk.symm]
  · rw [exec_call_of_full nnn s hsp, raise_of_pc _ s a hpc]

/-- Settles O23: both instructions are a skip on a test of `V[x]` against `kk`. -/
theorem skipsOnImmediate : Obligations.SkipsOnImmediate :=
  fun x kk s => ⟨skipsIf_of_exec (exec_seVxKk x kk s) beq_iff_eq, skipsIf_of_exec (exec_sneVxKk x kk s) bne_iff_ne⟩

/-- Settles O24: both instructions are a skip on a test of `V[x]` against `V[y]`. -/
theorem skipsOnRegisters : Obligations.SkipsOnRegisters :=
  fun x y s => ⟨skipsIf_of_exec (exec_seVxVy x y s) beq_iff_eq, skipsIf_of_exec (exec_sneVxVy x y s) bne_iff_ne⟩

end Sys2Proof
end

section
/-! Loads, the flagless addition and the logic instructions (41_alu.md): what executing each of these instructions answers,
as one register write. -/

namespace Sys2Proof.Machine

/-! ## The immediate forms (R142, R143) -/

theorem exec_ldVxKk (x : Reg) (kk : Byte) (s : State) : exec (.ldVxKk x kk) s = .next (writeV s x kk) := rfl

theorem exec_addVxKk (x : Reg) (kk : Byte) (s : State) :
    exec (.addVxKk x kk) s = .next (writeV s x (readV s x + kk)) := rfl

/-- A sum of bytes is the sum of their values modulo 256. -/
theorem byte_add_eq_ofNat (a b : Byte) : a + b = BitVec.ofNat 8 ((a.toNat + b.toNat) % 256) :=
  BitVec.eq_of_toNat_eq (by simp)

/-! ## The forms of two registers (R144 to R147) -/

theorem exec_ldVxVy (x y : Reg) (s : State) : exec (.ldVxVy x y) s = .next (writeV s x (readV s y)) := rfl

theorem exec_orVxVy (x y : Reg) (s : State) :
    exec (.orVxVy x y) s = .next (writeV s x (readV s x ||| readV s y)) := rfl

theorem exec_andVxVy (x y : Reg) (s : State) :
    exec (.andVxVy x y) s = .next (writeV s x (readV s x &&& readV s y)) := rfl

theorem exec_xorVxVy (x y : Reg) (s : State) :
    exec (.xorVxVy x y) s = .next (writeV s x (readV s x ^^^ readV s y)) := rfl

/-! ## One register write -/

/-- An instruction that answers the state with `b` written to `V[x]` writes that register and nothing else. -/
theorem writesRegister_of_exec {i : Instr} {x : Reg} {b : Byte} {s : State} (h : exec i s = .next (writeV s x b)) :
    WritesRegister i x b s :=
  ⟨writeV s x b, h, readV_writeV_same s x b, fun r hr => readV_writeV_other s x r b hr, rfl⟩

end Sys2Proof.Machine
end

section
/-! The obligations on loads, the flagless addition and the logic instructions (41_alu.md). -/

namespace Sys2Proof
open Machine

/-- Settles O25: both instructions are one register write; the byte that ADD writes is the sum modulo 256. -/
theorem immediateLoadAndAdd : Obligations.ImmediateLoadAndAdd := by
  intro x kk s
  refine ⟨writesRegister_of_exec (exec_ldVxKk x kk s), ?_⟩
  rw [← byte_add_eq_ofNat]
  exact writesRegister_of_exec (exec_addVxKk x kk s)

/-- Settles O26: each of the four instructions is one register write, of `V[y]` or of the bitwise result. -/
theorem copyAndLogic : Obligations.CopyAndLogic :=
  fun x y s => ⟨writesRegister_of_exec (exec_ldVxVy x y s), writesRegister_of_exec (exec_orVxVy x y s),
    writesRegister_of_exec (exec_andVxVy x y s), writesRegister_of_exec (exec_xorVxVy x y s)⟩

end Sys2Proof
end

section
/-! The index register's loads (42_index_memory.md section 1): what LD I and ADD I answer, and the value of the index sum. -/

namespace Sys2Proof.Machine

/-! ## LD I and ADD I (R170, R171) -/

theorem exec_ldI (nnn : Addr) (s : State) : exec (.ldI nnn) s = .next { s with i := zextAddr nnn } := rfl

theorem exec_addIVx (x : Reg) (s : State) :
    exec (.addIVx x) s = .next { s with i := indexSum s.i (readV s x) } := rfl

/-- The index sum is taken on values modulo 4096, so holding it in a 16-bit word loses nothing. -/
theorem indexSum_toNat (i : Word) (b : Byte) : (indexSum i b).toNat = (i.toNat + b.toNat) % 4096 := by
  have hlt : (i.toNat + b.toNat) % 4096 < 2 ^ 16 := by omega
  rw [indexSum, BitVec.toNat_ofNat, Nat.mod_eq_of_lt hlt]

end Sys2Proof.Machine
end

section
/-! The obligation on the index register's load and addition (42_index_memory.md section 1). -/

namespace Sys2Proof
open Machine

/-- Settles O31: both instructions write `I` alone, LD I the zero-extended address and ADD I the index sum. -/
theorem indexLoadAndAdd : Obligations.IndexLoadAndAdd :=
  fun nnn x s => ⟨⟨_, exec_ldI nnn s, zextAddr_toNat nnn, rfl⟩,
    ⟨_, exec_addIVx x s, indexSum_toNat s.i (readV s x), rfl⟩⟩

end Sys2Proof
end

section
/-! What the three timer instructions answer (43_timers.md R190 to R192). -/

namespace Sys2Proof.Machine

theorem exec_ldVxDt (x : Reg) (s : State) : exec (.ldVxDt x) s = .next (writeV s x s.dt) := rfl

theorem exec_ldDtVx (x : Reg) (s : State) : exec (.ldDtVx x) s = .next { s with dt := readV s x } := rfl

theorem exec_ldStVx (x : Reg) (s : State) : exec (.ldStVx x) s = .next { s with st := readV s x } := rfl

end Sys2Proof.Machine
end

section
/-! The obligation on the timer instructions (43_timers.md). -/

namespace Sys2Proof
open Machine

/-- Settles O39: LD Vx, DT is one register write, of the delay timer; the other two write their own timer alone. -/
theorem timerInstructions : Obligations.TimerInstructions := by
  intro x s
  refine ⟨?readsDelay, ?setsDelay, ?setsSound⟩
  case readsDelay => exact writesRegister_of_exec (exec_ldVxDt x s)
  case setsDelay => exact ⟨_, exec_ldDtVx x s, rfl, rfl⟩
  case setsSound => exact ⟨_, exec_ldStVx x s, rfl, rfl⟩

end Sys2Proof
end

section
/-! What CLS answers (44_display.md R201), and the pixels of the framebuffer it writes. -/

namespace Sys2Proof.Machine

/-- In a framebuffer of equal pixels every pixel is that one. -/
@[simp] theorem getPixel_replicate (b : Bool) (r : Fin 32) (c : Fin 64) :
    getPixel (Vector.replicate 32 (Vector.replicate 64 b)) r c = b := by
  simp only [getPixel, Fin.getElem_fin, Vector.getElem_replicate]

theorem exec_cls (s : State) :
    exec .cls s = .next { s with fb := Vector.replicate 32 (Vector.replicate 64 false), dirty := true } := rfl

end Sys2Proof.Machine
end

section
/-! The obligation on CLS (44_display.md R201). -/

namespace Sys2Proof
open Machine

/-- Settles O42: CLS writes the framebuffer of clear pixels and sets `dirty`, neither depending on what stood there. -/
theorem clsClearsScreen : Obligations.ClsClearsScreen := by
  intro s
  refine ⟨_, exec_cls s, ?pixels, ?dirty, ?frame⟩
  case pixels => exact getPixel_replicate false
  case dirty => rfl
  case frame => rfl

end Sys2Proof
end

section
/-! Decoding and encoding (30_encoding.md R91, R97): an encoded word decodes to its instruction, a word that decodes is the
encoded word of its instruction, and a word that matches a row of the table decodes to an instruction of that row. -/

namespace Sys2Proof

/-! ## From an instruction to its word and back -/

@[simp] theorem nib_toFin (x : Fin 16) : (nib x).toFin = x := rfl

/-- An encoded word decodes to its instruction: its fields are those it was put together from, and the selector among them
leads the dispatch to the instruction's own branch. -/
theorem decodeWord_encode (i : Instr) : decodeWord (encode i) = .ok i := by
  cases i with
  | cls | ret => decide
  | jp | call | ldI | jpV0 | seVxKk | sneVxKk | ldVxKk | addVxKk | rnd | seVxVy | sneVxVy | drw =>
    simp [encode, decodeWord]
  | ldVxVy | orVxVy | andVxVy | xorVxVy | addVxVy | subVxVy | shr | subnVxVy | shl =>
    simp only [encode, decodeWord, decode8, fieldPrimary_nibbles, fieldX_nibbles, fieldY_nibbles, fieldN_nibbles]
    rfl
  | skp | sknp => simp [encode, decodeWord, decodeE]
  | ldVxDt | ldVxK | ldDtVx | ldStVx | addIVx | ldFVx | ldBVx | ldMemVx | ldVxMem => simp [encode, decodeWord, decodeF]

/-! ## From a word to its instruction and back -/

/-- A word is its primary nibble, its `x` and its `kk` (R91). -/
theorem word_eq_byte (op : Word) : fieldPrimary op ++ nib (fieldX op) ++ fieldKk op = op :=
  calc fieldPrimary op ++ nib (fieldX op) ++ fieldKk op
    _ = op.extractLsb' 8 8 ++ fieldKk op :=
      congrArg (· ++ fieldKk op) (BitVec.extractLsb'_append_extractLsb'_eq_extractLsb' rfl)
    _ = op := composeWord_wordBytes op

/-- A word is its four nibbles (R91). -/
theorem word_eq_nibbles (op : Word) :
    fieldPrimary op ++ nib (fieldX op) ++ nib (fieldY op) ++ nib (fieldN op) = op :=
  calc (fieldPrimary op ++ nib (fieldX op) ++ nib (fieldY op) ++ nib (fieldN op) : Word)
    _ = fieldPrimary op ++ nib (fieldX op) ++ (nib (fieldY op) ++ nib (fieldN op)) := BitVec.append_assoc ..
    _ = fieldPrimary op ++ nib (fieldX op) ++ fieldKk op :=
      congrArg (fieldPrimary op ++ nib (fieldX op) ++ ·) (BitVec.extractLsb'_append_extractLsb'_eq_extractLsb' rfl)
    _ = op := word_eq_byte op

/-- What a decoder answers for `op` is refused or encodes to `op`. -/
def EncodesBack (op : Word) (r : Except DecodeReject Instr) : Prop := ∀ i, r = .ok i → encode i = op

theorem encodesBack_ok {op : Word} {a : Instr} (h : encode a = op) : EncodesBack op (.ok a) := by
  rintro i ⟨⟩
  exact h

theorem encodesBack_error (op : Word) (e : DecodeReject) : EncodesBack op (.error e) := nofun

theorem encodesBack_ite {op : Word} {c : Prop} [Decidable c] {r r' : Except DecodeReject Instr}
    (h : c → EncodesBack op r) (h' : ¬ c → EncodesBack op r') : EncodesBack op (if c then r else r') := by
  split
  · next hc => exact h hc
  · next hc => exact h' hc

/-! An instruction of a given primary nibble, built from the fields of `op`, by the form of its word. -/

theorem encodesBack_addr {op : Word} {p : BitVec 4} {a : Instr} (h : encode a = p ++ fieldNnn op)
    (hp : fieldPrimary op = p) : EncodesBack op (.ok a) :=
  encodesBack_ok (by rw [h, ← hp, word_eq_addr])

theorem encodesBack_byte {op : Word} {p : BitVec 4} {kk : Byte} {a : Instr}
    (h : encode a = p ++ nib (fieldX op) ++ kk) (hp : fieldPrimary op = p) (hk : fieldKk op = kk) :
    EncodesBack op (.ok a) :=
  encodesBack_ok (by rw [h, ← hp, ← hk, word_eq_byte])

theorem encodesBack_nibbles {op : Word} {p : BitVec 4} {n : Fin 16} {a : Instr}
    (h : encode a = p ++ nib (fieldX op) ++ nib (fieldY op) ++ nib n) (hp : fieldPrimary op = p)
    (hn : fieldN op = n) : EncodesBack op (.ok a) :=
  encodesBack_ok (by rw [h, ← hp, ← hn, word_eq_nibbles])

/-- The form of primary nibbles 5 and 9: an instruction where bits 3..0 are 0, and else a refusal. -/
theorem encodesBack_nibble59 {op : Word} {p : BitVec 4} {a : Instr} {e : DecodeReject}
    (h : encode a = p ++ nib (fieldX op) ++ nib (fieldY op) ++ nib 0) (hp : fieldPrimary op = p) :
    EncodesBack op (if fieldN op = 0 then .ok a else .error e) :=
  encodesBack_ite (encodesBack_nibbles h hp) fun _ => encodesBack_error op e

theorem decode0_encodesBack (op : Word) : EncodesBack op (decode0 op) :=
  encodesBack_ite (fun h => encodesBack_ok h.symm) fun _ =>
  encodesBack_ite (fun h => encodesBack_ok h.symm) fun _ =>
  encodesBack_error op _

theorem decode8_encodesBack (op : Word) (hp : fieldPrimary op = 0x8#4) : EncodesBack op (decode8 op) := by
  unfold decode8
  repeat' refine encodesBack_ite (encodesBack_nibbles rfl hp) fun _ => ?_
  exact encodesBack_error op _

theorem decodeE_encodesBack (op : Word) (hp : fieldPrimary op = 0xE#4) : EncodesBack op (decodeE op) := by
  unfold decodeE
  repeat' refine encodesBack_ite (encodesBack_byte rfl hp) fun _ => ?_
  exact encodesBack_error op _

theorem decodeF_encodesBack (op : Word) (hp : fieldPrimary op = 0xF#4) : EncodesBack op (decodeF op) := by
  unfold decodeF
  repeat' refine encodesBack_ite (encodesBack_byte rfl hp) fun _ => ?_
  exact encodesBack_error op _

/-- Each branch of the dispatch has fixed the primary nibble, in the order of its values. -/
theorem decodeWord_encodesBack (op : Word) : EncodesBack op (decodeWord op) := by
  unfold decodeWord
  refine encodesBack_ite (fun _ => decode0_encodesBack op) fun _ => ?_
  refine encodesBack_ite (encodesBack_addr rfl) fun _ => ?_
  refine encodesBack_ite (encodesBack_addr rfl) fun _ => ?_
  refine encodesBack_ite (encodesBack_byte rfl · rfl) fun _ => ?_
  refine encodesBack_ite (encodesBack_byte rfl · rfl) fun _ => ?_
  refine encodesBack_ite (encodesBack_nibble59 rfl) fun _ => ?_
  refine encodesBack_ite (encodesBack_byte rfl · rfl) fun _ => ?_
  refine encodesBack_ite (encodesBack_byte rfl · rfl) fun _ => ?_
  refine encodesBack_ite (decode8_encodesBack op) fun _ => ?_
  refine encodesBack_ite (encodesBack_nibble59 rfl) fun _ => ?_
  refine encodesBack_ite (encodesBack_addr rfl) fun _ => ?_
  refine encodesBack_ite (encodesBack_addr rfl) fun _ => ?_
  refine encodesBack_ite (encodesBack_byte rfl · rfl) fun _ => ?_
  refine encodesBack_ite (encodesBack_nibbles rfl · rfl) fun _ => ?_
  refine encodesBack_ite (decodeE_encodesBack op) fun _ => ?_
  have hF : fieldPrimary op = 0xF#4 := by bv_omega
  exact decodeF_encodesBack op hF

/-! ## From a row of the table to an instruction -/

/-- A row does not depend on the operands, and the table holds one of each constructor. -/
theorem rowOf_mem_opcodeTable (i : Instr) : rowOf i ∈ opcodeTable := by
  cases i <;> simp [opcodeTable, rowOf]

theorem exists_rowOf_eq_of_mem_opcodeTable : ∀ r ∈ opcodeTable, ∃ i, rowOf i = r := by
  simp [opcodeTable, or_imp, forall_and]

open Laws in
/-- The encoded word of an instruction matches its row, whichever instruction it is. -/
theorem rowOf_accepts_encode : ∀ i, (rowOf i).accepts (encode i) = true
  | .cls => RowMatch.cls | .ret => RowMatch.ret | .jp nnn => RowMatch.jp nnn | .call nnn => RowMatch.call nnn
  | .seVxKk x kk => RowMatch.seVxKk x kk | .sneVxKk x kk => RowMatch.sneVxKk x kk
  | .seVxVy x y => RowMatch.seVxVy x y | .ldVxKk x kk => RowMatch.ldVxKk x kk
  | .addVxKk x kk => RowMatch.addVxKk x kk | .ldVxVy x y => RowMatch.ldVxVy x y | .orVxVy x y => RowMatch.orVxVy x y
  | .andVxVy x y => RowMatch.andVxVy x y | .xorVxVy x y => RowMatch.xorVxVy x y
  | .addVxVy x y => RowMatch.addVxVy x y | .subVxVy x y => RowMatch.subVxVy x y | .shr x y => RowMatch.shr x y
  | .subnVxVy x y => RowMatch.subnVxVy x y | .shl x y => RowMatch.shl x y | .sneVxVy x y => RowMatch.sneVxVy x y
  | .ldI nnn => RowMatch.ldI nnn | .jpV0 nnn => RowMatch.jpV0 nnn | .rnd x kk => RowMatch.rnd x kk
  | .drw x y n => RowMatch.drw x y n | .skp x => RowMatch.skp x | .sknp x => RowMatch.sknp x
  | .ldVxDt x => RowMatch.ldVxDt x | .ldVxK x => RowMatch.ldVxK x | .ldDtVx x => RowMatch.ldDtVx x
  | .ldStVx x => RowMatch.ldStVx x | .addIVx x => RowMatch.addIVx x | .ldFVx x => RowMatch.ldFVx x
  | .ldBVx x => RowMatch.ldBVx x | .ldMemVx x => RowMatch.ldMemVx x | .ldVxMem x => RowMatch.ldVxMem x

/-! A word under the mask of a row keeps the selectors that the row fixes; they are said as numbers, in which the
decoder's tests are `fieldPrimary_eq_iff`, `fieldN_eq_iff` and `fieldKk_eq_iff`. -/

open Laws in
theorem primary_of_mask (op w : Word) (h : op &&& 0xF000#16 = w) : op.toNat / 4096 = w.toNat / 4096 := by
  have hp : fieldPrimary op = fieldPrimary w := by
    rw [← h, ← word_eq_byte op, mask_byte, fieldPrimary_byte, fieldPrimary_byte]
  simp only [← fieldPrimary_toNat, hp]

open Laws in
theorem selectors_of_mask_nibble (op w : Word) (h : op &&& 0xF00F#16 = w) :
    op.toNat / 4096 = w.toNat / 4096 ∧ op.toNat % 16 = w.toNat % 16 := by
  rw [← word_eq_nibbles op, mask_nibble] at h
  have hp : fieldPrimary op = fieldPrimary w := by rw [← h, fieldPrimary_nibbles]
  have hn : fieldN op = fieldN w := by rw [← h, fieldN_nibbles]; rfl
  exact ⟨by simp only [← fieldPrimary_toNat, hp], by rwa [fieldN_eq_iff] at hn⟩

open Laws in
theorem selectors_of_mask_byte (op w : Word) (h : op &&& 0xF0FF#16 = w) :
    op.toNat / 4096 = w.toNat / 4096 ∧ op.toNat % 256 = w.toNat % 256 := by
  rw [← word_eq_byte op, mask_selector] at h
  have hp : fieldPrimary op = fieldPrimary w := by rw [← h, fieldPrimary_byte]
  have hk : fieldKk op = fieldKk w := by rw [← h, fieldKk_byte]
  exact ⟨by simp only [← fieldPrimary_toNat, hp], by rwa [fieldKk_eq_iff] at hk⟩

/-- A word that matches the row of `i` decodes to an instruction of that row. -/
theorem decodeWord_of_row (op : Word) (i : Instr) (h : op &&& (rowOf i).mask = (rowOf i).pattern) :
    ∃ j, decodeWord op = .ok j ∧ rowOf j = rowOf i := by
  cases i with
  | cls | ret =>
    obtain rfl : op = _ := (BitVec.and_allOnes (x := op)).symm.trans h
    exact ⟨_, rfl, rfl⟩
  | jp | call | ldI | jpV0 | seVxKk | sneVxKk | ldVxKk | addVxKk | rnd | drw =>
    have hp := primary_of_mask op _ h
    simp [decodeWord, fieldPrimary_eq_iff, hp, rowOf]
  | seVxVy | sneVxVy | ldVxVy | orVxVy | andVxVy | xorVxVy | addVxVy | subVxVy | shr | subnVxVy | shl =>
    obtain ⟨hp, hn⟩ := selectors_of_mask_nibble op _ h
    simp [decodeWord, decode8, fieldPrimary_eq_iff, fieldN_eq_iff, hp, hn, rowOf]
  | skp | sknp | ldVxDt | ldVxK | ldDtVx | ldStVx | addIVx | ldFVx | ldBVx | ldMemVx | ldVxMem =>
    obtain ⟨hp, hk⟩ := selectors_of_mask_byte op _ h
    simp [decodeWord, decodeE, decodeF, fieldPrimary_eq_iff, fieldKk_eq_iff, hp, hk, rowOf]

end Sys2Proof
end

section
/-! The obligations on decoding and encoding (30_encoding.md). -/

namespace Sys2Proof

/-- Settles O1: each of the 29 words is a literal, which the decoder evaluates. -/
theorem specWordsDecode : Obligations.SpecWordsDecode := by
  unfold Obligations.SpecWordsDecode
  decide

/-- Settles O2: an encoded word's fields lead the decoder back to its instruction. -/
theorem decodeEncodeRoundTrip : Obligations.DecodeEncodeRoundTrip := decodeWord_encode

/-- Settles O3: each branch of the decoder has fixed the selectors of the word, and the word is its fields. -/
theorem encodeDecodeRoundTrip : Obligations.EncodeDecodeRoundTrip := decodeWord_encodesBack

/-- Settles O4: a word that decodes is an encoded one, which matches its row; a word that matches a row has the selectors of
that row, which lead the decoder to an instruction of it. -/
theorem decodeFollowsOpcodeTable : Obligations.DecodeFollowsOpcodeTable := by
  refine ⟨fun op i hi => ⟨rowOf_mem_opcodeTable i, ?_⟩, fun op r hr h => ?_⟩
  · rw [← decodeWord_encodesBack op i hi]
    exact beq_iff_eq.mp (rowOf_accepts_encode i)
  · obtain ⟨i, rfl⟩ := exists_rowOf_eq_of_mem_opcodeTable r hr
    exact decodeWord_of_row op i h

end Sys2Proof
end

section
/-! JP V0, and the value its sum has (40_control.md R123). -/

namespace Sys2Proof.Machine

theorem exec_jpV0 (nnn : Addr) (s : State) :
    exec (.jpV0 nnn) s = .next { s with pc := zextByte (readV s 0) + zextAddr nnn } := rfl

/-- The sum of a byte and an address is below 0x10FF, so taking it on 16 bits loses nothing. -/
theorem zextByte_add_zextAddr_toNat (b : Byte) (nnn : Addr) :
    (zextByte b + zextAddr nnn).toNat = b.toNat + nnn.toNat := by
  have hb : b.toNat < 256 := b.isLt
  have hn : nnn.toNat < 4096 := nnn.isLt
  rw [BitVec.toNat_add, zextAddr_toNat, zextByte, BitVec.toNat_setWidth]
  omega

end Sys2Proof.Machine
end

section
/-! The obligations on CALL and RET together, their fault records, and JP V0 (40_control.md). -/

namespace Sys2Proof
open Machine

/-- Settles O20: both instructions raise their fault, and `pc` is the instruction's address advanced. -/
theorem stackFaultRecords : Obligations.StackFaultRecords := by
  intro nnn s a hpc
  refine ⟨fun hsp => ?_, fun hsp => ?_⟩
  · rw [exec_call_of_full nnn s hsp, raise_of_pc _ s a hpc]
  · rw [exec_ret_of_empty s hsp, raise_of_pc _ s a hpc]

/-- Settles O21: RET pops the entry that CALL pushed at `sp`, and the entries below it were not written. -/
theorem callThenRetReturns : Obligations.CallThenRetReturns := by
  intro nnn s w hsp
  refine ⟨_, _, exec_call_of_room nnn s hsp, exec_ret_of_entry _ (Nat.succ_ne_zero _), ?pc, rfl, ?below, rfl⟩
  case pc => simp
  case below =>
    intro k hk
    simp [hk.ne']

/-- Settles O22: the sum fits in 16 bits. -/
theorem jpV0AddsOffset : Obligations.JpV0AddsOffset :=
  fun nnn s => ⟨_, exec_jpV0 nnn s, zextByte_add_zextAddr_toNat (readV s 0) nnn, rfl⟩

end Sys2Proof
end

section
/-! The five instructions that write a result and the flag, and RND (41_alu.md): what executing each of these instructions
answers, and the results and flags as arithmetic on values. -/

namespace Sys2Proof.Machine

/-! ## Results with a flag (R148 to R152) -/

theorem exec_addVxVy (x y : Reg) (s : State) :
    exec (.addVxVy x y) s = .next (writeResultFlag s x (addCarry (readV s x) (readV s y))) := rfl

theorem exec_subVxVy (x y : Reg) (s : State) :
    exec (.subVxVy x y) s = .next (writeResultFlag s x (subNotBorrow (readV s x) (readV s y))) := rfl

theorem exec_subnVxVy (x y : Reg) (s : State) :
    exec (.subnVxVy x y) s = .next (writeResultFlag s x (subNotBorrow (readV s y) (readV s x))) := rfl

theorem exec_shr (x y : Reg) (s : State) :
    exec (.shr x y) s = .next (writeResultFlag s x (shiftRightOut (readV s x))) := rfl

theorem exec_shl (x y : Reg) (s : State) :
    exec (.shl x y) s = .next (writeResultFlag s x (shiftLeftOut (readV s x))) := rfl

/-- An instruction that answers the state with a result and a flag written leaves just those two, the flag last. -/
theorem writesRegisterAndFlag_of_exec {i : Instr} {x : Reg} {rf : Byte × Bool} {b f : Byte} {s : State}
    (h : exec i s = .next (writeResultFlag s x rf)) (hb : rf.1 = b) (hf : flagByte rf.2 = f) :
    WritesRegisterAndFlag i x b f s := by
  subst hb hf
  refine ⟨_, h, readV_writeResultFlag_flag s x rf, fun hx => ?_, fun r hrx hrf => ?_, rfl⟩
  · exact (readV_writeResultFlag s x x rf).trans ((if_neg hx).trans (if_pos rfl))
  · exact (readV_writeResultFlag s x r rf).trans ((if_neg hrf).trans (if_neg hrx))

theorem flagByte_decide (p : Prop) [Decidable p] : flagByte (decide p) = if p then 0x01#8 else 0x00#8 := by
  simp [flagByte]

/-- A bit of a byte as a flag is the bit's value. -/
theorem flagByte_getLsbD (a : Byte) (k : Nat) : flagByte (a.getLsbD k) = BitVec.ofNat 8 (a.toNat / 2 ^ k % 2) := by
  rw [BitVec.getLsbD, Nat.testBit_eq_decide_div_mod_eq, flagByte_decide]
  rcases Nat.mod_two_eq_zero_or_one (a.toNat / 2 ^ k) with h | h <;> simp [h]

theorem addCarry_fst (a b : Byte) : (addCarry a b).1 = a + b := by
  rw [byte_add_eq_ofNat]
  exact BitVec.eq_of_toNat_eq (by simp [addCarry])

theorem subNotBorrow_fst (a b : Byte) : (subNotBorrow a b).1 = a - b := by
  have hb : b.toNat < 256 := b.isLt
  apply BitVec.eq_of_toNat_eq
  simp only [subNotBorrow, BitVec.toNat_ofNat, BitVec.toNat_sub]
  omega

theorem shiftRightOut_fst (a : Byte) : (shiftRightOut a).1 = BitVec.ofNat 8 (a.toNat / 2) := by
  have ha : a.toNat < 256 := a.isLt
  apply BitVec.eq_of_toNat_eq
  simp only [shiftRightOut, BitVec.toNat_ofNat, BitVec.toNat_ushiftRight, Nat.shiftRight_eq_div_pow]
  omega

theorem shiftLeftOut_fst (a : Byte) : (shiftLeftOut a).1 = BitVec.ofNat 8 (a.toNat * 2 % 256) := by
  apply BitVec.eq_of_toNat_eq
  simp only [shiftLeftOut, BitVec.toNat_ofNat, BitVec.toNat_shiftLeft, Nat.shiftLeft_eq]
  omega

/-! ## RND (R153) -/

theorem exec_rnd (x : Reg) (kk : Byte) (s : State) :
    exec (.rnd x kk) s = .next (writeV (afterDraw s) x (drawByte s &&& kk)) := rfl

theorem drawByte_of_pending {s : State} {d : Byte} {rest : List Byte} (h : s.draws = d :: rest) : drawByte s = d := by
  simp [drawByte, h]

/-- Using up a draw changes the model's own draw fields only. -/
theorem afterDraw_eq (s : State) :
    afterDraw s = { s with draws := (afterDraw s).draws, drawCount := (afterDraw s).drawCount } := by
  unfold afterDraw
  split <;> rfl

end Sys2Proof.Machine
end

section
/-! The obligations on the flag-writing arithmetic and on RND (41_alu.md). -/

namespace Sys2Proof
open Machine

/-- Settles O27: the instruction writes the sum and then the carry. -/
theorem addSetsCarry : Obligations.AddSetsCarry :=
  fun x y s => writesRegisterAndFlag_of_exec (exec_addVxVy x y s) (addCarry_fst _ _) (flagByte_decide _)

/-- Settles O28: both instructions write a difference and then whether it borrowed nothing. -/
theorem subtractSetsNotBorrow : Obligations.SubtractSetsNotBorrow :=
  fun x y s => ⟨writesRegisterAndFlag_of_exec (exec_subVxVy x y s) (subNotBorrow_fst _ _) (flagByte_decide _),
    writesRegisterAndFlag_of_exec (exec_subnVxVy x y s) (subNotBorrow_fst _ _) (flagByte_decide _)⟩

/-- Settles O29: both instructions write the shifted byte and then the bit that left it, bit 0 or bit 7. -/
theorem shiftsSetLostBit : Obligations.ShiftsSetLostBit := by
  intro x y s
  refine ⟨writesRegisterAndFlag_of_exec (exec_shr x y s) (shiftRightOut_fst _) ?_,
    writesRegisterAndFlag_of_exec (exec_shl x y s) (shiftLeftOut_fst _) ?_⟩
  · rw [shiftRightOut, flagByte_getLsbD, Nat.pow_zero, Nat.div_one]
  · have hlt : (readV s x).toNat < 256 := (readV s x).isLt
    have hbit : (readV s x).toNat / 2 ^ 7 % 2 = (readV s x).toNat / 128 := by omega
    rw [shiftLeftOut, flagByte_getLsbD, hbit]

/-- Settles O30: the draw is the next pending byte where there is one, and using it up touches the draw fields only. -/
theorem rndMasksFreshDraw : Obligations.RndMasksFreshDraw := by
  intro x kk s
  refine ⟨_, exec_rnd x kk s, readV_writeV_same _ _ _, ?pending, ?free, ?others, ?frame⟩
  case pending =>
    intro d rest hd
    simp [hd, drawByte_of_pending hd]
  case free =>
    intro hd
    simp [hd]
  case others =>
    intro r hr
    rw [readV_writeV_other _ _ _ _ hr, readV, afterDraw_v, readV]
  case frame =>
    rw [afterDraw_eq]
    rfl

end Sys2Proof
end

section
/-! The font address, BCD and block transfers (42_index_memory.md): what executing each of these instructions answers, inside
memory and above it. -/

namespace Sys2Proof.Machine

/-! ## The masked digit and the glyph address (R172) -/

theorem lowNibble_val (b : Byte) : (lowNibble b).val = b.toNat % 16 := by
  have hand : b.toNat &&& 15 = b.toNat % 16 := Nat.and_two_pow_sub_one_eq_mod b.toNat 4
  simp [lowNibble, hand]

theorem exec_ldFVx (x : Reg) (s : State) :
    exec (.ldFVx x) s = .next { s with i := glyphAddress (readV s x) } := rfl

theorem glyphAddress_toNat (b : Byte) : (glyphAddress b).toNat = 0x050 + 5 * (b.toNat % 16) := by
  simp only [glyphAddress, fontBase, lowNibble_val, BitVec.toNat_ofNat]
  omega

/-! ## Stores and loads relative to `I` (R173 to R176) -/

theorem exec_ldBVx_of_inside (x : Reg) (s : State) (h : s.i.toNat + 2 ≤ 0xFFF) :
    exec (.ldBVx x) s = .next { s with mem := s.mem.writeBytes s.i.toNat (bcdDigits (readV s x)) } :=
  if_pos ((inMemory_iff _).mpr h)

theorem exec_ldMemVx_of_inside (x : Reg) (s : State) (h : s.i.toNat + x.val ≤ 0xFFF) :
    exec (.ldMemVx x) s = .next { s with mem := s.mem.writeBytes s.i.toNat (registersUpTo s x) } :=
  if_pos ((inMemory_iff _).mpr h)

theorem exec_ldVxMem_of_inside (x : Reg) (s : State) (h : s.i.toNat + x.val ≤ 0xFFF) :
    exec (.ldVxMem x) s = .next { s with v := registersLoaded s x } :=
  if_pos ((inMemory_iff _).mpr h)

theorem exec_ldBVx_of_outside (x : Reg) (s : State) (h : s.i.toNat + 2 > 0xFFF) :
    exec (.ldBVx x) s = raise .dataOutOfBounds s :=
  if_neg (mt (inMemory_iff _).mp (Nat.not_le.mpr h))

theorem exec_ldMemVx_of_outside (x : Reg) (s : State) (h : s.i.toNat + x.val > 0xFFF) :
    exec (.ldMemVx x) s = raise .dataOutOfBounds s :=
  if_neg (mt (inMemory_iff _).mp (Nat.not_le.mpr h))

theorem exec_ldVxMem_of_outside (x : Reg) (s : State) (h : s.i.toNat + x.val > 0xFFF) :
    exec (.ldVxMem x) s = raise .dataOutOfBounds s :=
  if_neg (mt (inMemory_iff _).mp (Nat.not_le.mpr h))

/-! ## What is stored and loaded -/

/-- Byte `k` of a run of writes reads as it was written. -/
theorem Memory.read_writeBytes_inside (m : Memory) (a : Nat) (bs : List Byte) (k : Nat) (hk : k < bs.length) :
    (m.writeBytes a bs).read (a + k) = bs[k] := by
  rw [Memory.read_writeBytes, dif_pos (by omega)]
  simp only [Nat.add_sub_cancel_left]

theorem registersUpTo_length (s : State) (x : Reg) : (registersUpTo s x).length = x.val + 1 := by
  simp [registersUpTo]

/-- After the store the byte at `I + k` is `V[k]`, for each register stored. -/
theorem read_writeBytes_registersUpTo (m : Memory) (a : Nat) (s : State) (x k : Reg) (h : k ≤ x) :
    (m.writeBytes a (registersUpTo s x)).read (a + k.val) = readV s k := by
  have hk : k.val < (registersUpTo s x).length := by rw [registersUpTo_length]; exact Nat.lt_succ_of_le h
  rw [Memory.read_writeBytes_inside m a _ k.val hk]
  simp [registersUpTo, readV]

/-- The store leaves every byte outside `I` to `I + x` alone. -/
theorem read_writeBytes_registersUpTo_other (m : Memory) (a d : Nat) (s : State) (x : Reg) (h : d < a ∨ a + x.val < d) :
    (m.writeBytes a (registersUpTo s x)).read d = m.read d :=
  Memory.read_writeBytes_other m a d _ (by rw [registersUpTo_length]; omega)

/-- The registers a load reaches are the bytes at `I`, the others what they were. -/
theorem registersLoaded_get (s : State) (x k : Reg) :
    (registersLoaded s x)[k] = if k ≤ x then s.mem.read (s.i.toNat + k.val) else readV s k := by
  simp [registersLoaded, indexed, readV]

end Sys2Proof.Machine
end

section
/-! The obligations on the font address, BCD and block transfers (42_index_memory.md). -/

namespace Sys2Proof
open Machine

/-- Settles O32: the glyph address is taken on the low four bits. -/
theorem fontAddressMasksDigit : Obligations.FontAddressMasksDigit :=
  fun x s => ⟨_, exec_ldFVx x s, glyphAddress_toNat (readV s x), rfl⟩

/-- Settles O33: the three digits are stored in order, so each is read at its own address. -/
theorem bcdStoresDigits : Obligations.BcdStoresDigits := by
  intro x s hi
  refine ⟨_, exec_ldBVx_of_inside x s hi, ?hundreds, ?tens, ?ones, fun a ha => ?others, rfl⟩
  case hundreds => simp [Memory.read_writeBytes, bcdDigits]
  case tens => simp [Memory.read_writeBytes, bcdDigits]
  case ones => simp [Memory.read_writeBytes, bcdDigits]
  case others => exact Memory.read_writeBytes_other _ _ _ _ ha

/-- Settles O34: the stored bytes are the registers in order, and a run of writes leaves the bytes outside it alone. -/
theorem storeRegistersToMemory : Obligations.StoreRegistersToMemory :=
  fun x s hi => ⟨_, exec_ldMemVx_of_inside x s hi, fun k => read_writeBytes_registersUpTo _ _ s x k,
    fun a => read_writeBytes_registersUpTo_other _ _ a s x, rfl⟩

/-- Settles O35: register by register, a load takes the byte at `I + k` up to `x` and nothing above. -/
theorem loadRegistersFromMemory : Obligations.LoadRegistersFromMemory :=
  fun x s hi => ⟨_, exec_ldVxMem_of_inside x s hi,
    fun k hk => (registersLoaded_get s x k).trans (if_pos hk),
    fun k hk => (registersLoaded_get s x k).trans (if_neg (not_le.mpr hk)), rfl⟩

/-- Settles O37: the load reads at each address the register that the store wrote there. -/
theorem storeThenLoadRestores : Obligations.StoreThenLoadRestores := by
  intro x s w hi
  refine ⟨_, _, exec_ldMemVx_of_inside x s hi, exec_ldVxMem_of_inside x _ hi, fun k hk => ?_, fun k hk => ?_, rfl⟩
  · exact (registersLoaded_get _ x k).trans ((if_pos hk).trans (read_writeBytes_registersUpTo _ _ s x k hk))
  · exact (registersLoaded_get _ x k).trans (if_neg (not_le.mpr hk))

end Sys2Proof
end

section
/-! Drawing said pixel by pixel with `SpriteHits` (44_display.md R200, R202), what DRW answers, and the flat framebuffer. -/

namespace Sys2Proof.Machine

/-! ## The pixels a sprite hits -/

theorem eq_spriteRow_iff (y0 : Byte) (row : Nat) (r : Fin 32) : r = spriteRow y0 row ↔ r.val = (y0.toNat + row) % 32 := by
  simp [Fin.ext_iff, spriteRow]

theorem eq_spriteCol_iff (x0 : Byte) (col : Nat) (c : Fin 64) : c = spriteCol x0 col ↔ c.val = (x0.toNat + col) % 64 := by
  simp [Fin.ext_iff, spriteCol]

/-- `SpriteHits` in the rows and columns that the drawing itself computes. -/
theorem spriteHits_iff (m : Memory) (base : Nat) (x0 y0 : Byte) (n : Nat) (r : Fin 32) (c : Fin 64) :
    SpriteHits m base x0 y0 n r c ↔ ∃ row col, row < n ∧ col < 8 ∧ (m.read (base + row)).getLsbD (7 - col) = true ∧
      r = spriteRow y0 row ∧ c = spriteCol x0 col := by
  simp only [SpriteHits, eq_spriteRow_iff, eq_spriteCol_iff]
  constructor
  · rintro ⟨row, col, hrow, hcol, hr, hc, hbit⟩
    exact ⟨row, col, hrow, hcol, hbit, hr, hc⟩
  · rintro ⟨row, col, hrow, hcol, hbit, hr, hc⟩
    exact ⟨row, col, hrow, hcol, hr, hc, hbit⟩

/-- A set bit of the sprite and a property of the pixel it lands on are a pixel hit with that property. -/
theorem exists_bit_iff_exists_spriteHits (m : Memory) (base : Nat) (x0 y0 : Byte) (n : Nat) (P : Fin 32 → Fin 64 → Prop) :
    (∃ row col, row < n ∧ col < 8 ∧ (m.read (base + row)).getLsbD (7 - col) = true ∧
      P (spriteRow y0 row) (spriteCol x0 col)) ↔ ∃ r c, SpriteHits m base x0 y0 n r c ∧ P r c := by
  simp only [spriteHits_iff]
  constructor
  · rintro ⟨row, col, hrow, hcol, hbit, hP⟩
    exact ⟨_, _, ⟨row, col, hrow, hcol, hbit, rfl, rfl⟩, hP⟩
  · rintro ⟨r, c, ⟨row, col, hrow, hcol, hbit, rfl, rfl⟩, hP⟩
    exact ⟨row, col, hrow, hcol, hbit, hP⟩

theorem exists_spriteHits_iff_exists_bit (m : Memory) (base : Nat) (x0 y0 : Byte) (n : Nat) :
    (∃ r c, SpriteHits m base x0 y0 n r c) ↔
      ∃ row col, row < n ∧ col < 8 ∧ (m.read (base + row)).getLsbD (7 - col) = true := by
  simpa using (exists_bit_iff_exists_spriteHits m base x0 y0 n fun _ _ => True).symm

/-! ## What drawing a sprite does, for its at most 15 rows -/

section
variable (m : Memory) (base : Nat) (x0 y0 : Byte) (n : Fin 16) (fb : Framebuffer)

theorem getPixel_drawSprite_of_hit {r : Fin 32} {c : Fin 64} (h : SpriteHits m base x0 y0 n.val r c) :
    getPixel (drawSprite m base x0 y0 n.val fb).fb r c = !getPixel fb r c :=
  (drawSprite_spec m base x0 y0 n.val fb (by omega)).1 r c ((spriteHits_iff ..).mp h)

theorem getPixel_drawSprite_of_not_hit {r : Fin 32} {c : Fin 64} (h : ¬ SpriteHits m base x0 y0 n.val r c) :
    getPixel (drawSprite m base x0 y0 n.val fb).fb r c = getPixel fb r c :=
  (drawSprite_spec m base x0 y0 n.val fb (by omega)).2.1 r c (mt (spriteHits_iff ..).mpr h)

/-- A pixel differs after the draw exactly if the sprite hits it. -/
theorem getPixel_drawSprite_ne_iff (r : Fin 32) (c : Fin 64) :
    getPixel (drawSprite m base x0 y0 n.val fb).fb r c ≠ getPixel fb r c ↔ SpriteHits m base x0 y0 n.val r c := by
  by_cases h : SpriteHits m base x0 y0 n.val r c
  · simp [getPixel_drawSprite_of_hit m base x0 y0 n fb h, h]
  · simp [getPixel_drawSprite_of_not_hit m base x0 y0 n fb h, h]

theorem drawSprite_collide_iff : (drawSprite m base x0 y0 n.val fb).collide = true ↔
    ∃ r c, SpriteHits m base x0 y0 n.val r c ∧ getPixel fb r c = true := by
  obtain ⟨-, -, hcollide, -⟩ := drawSprite_spec m base x0 y0 n.val fb (by omega)
  exact hcollide.trans (exists_bit_iff_exists_spriteHits m base x0 y0 n.val (getPixel fb · · = true))

theorem drawSprite_changed_iff : (drawSprite m base x0 y0 n.val fb).changed = true ↔
    ∃ r c, SpriteHits m base x0 y0 n.val r c := by
  obtain ⟨-, -, -, hchanged⟩ := drawSprite_spec m base x0 y0 n.val fb (by omega)
  exact hchanged.trans (exists_spriteHits_iff_exists_bit m base x0 y0 n.val).symm

/-- Drawing a sprite twice inverts each pixel it hits twice. -/
theorem drawSprite_drawSprite_fb :
    (drawSprite m base x0 y0 n.val (drawSprite m base x0 y0 n.val fb).fb).fb = fb := by
  apply framebuffer_ext
  intro r c
  by_cases h : SpriteHits m base x0 y0 n.val r c
  · simp only [getPixel_drawSprite_of_hit m base x0 y0 n _ h, Bool.not_not]
  · simp only [getPixel_drawSprite_of_not_hit m base x0 y0 n _ h]

/-- The second of two equal draws collides exactly where the first one met a clear pixel. -/
theorem drawSprite_drawSprite_collide_iff :
    (drawSprite m base x0 y0 n.val (drawSprite m base x0 y0 n.val fb).fb).collide = true ↔
      ∃ r c, SpriteHits m base x0 y0 n.val r c ∧ getPixel fb r c = false := by
  rw [drawSprite_collide_iff]
  refine exists₂_congr fun r c => and_congr_right fun h => ?_
  rw [getPixel_drawSprite_of_hit m base x0 y0 n fb h, Bool.not_eq_true']

end

/-! ## DRW (R202) -/

/-- What DRW draws from `s`. -/
def drawn (x y : Reg) (n : Fin 16) (s : State) : DrawState :=
  drawSprite s.mem s.i.toNat (readV s x) (readV s y) n.val s.fb

/-- The rows of a sprite are inside memory exactly if its last one is; no row is outside where n = 0. -/
theorem drw_inside_iff (s : State) (n : Fin 16) :
    (n.val = 0 ∨ inMemory (indexed s (n.val - 1)) = true) ↔ (n.val = 0 ∨ s.i.toNat + n.val - 1 ≤ 0xFFF) := by
  rw [inMemory_iff, indexed]
  omega

theorem exec_drw_of_inside (x y : Reg) (n : Fin 16) (s : State) (h : n.val = 0 ∨ s.i.toNat + n.val - 1 ≤ 0xFFF) :
    exec (.drw x y n) s = .next
      { writeV s regF (flagByte (drawn x y n s).collide) with
        fb := (drawn x y n s).fb
        dirty := s.dirty || (drawn x y n s).changed } :=
  if_pos ((drw_inside_iff s n).mpr h)

theorem exec_drw_of_outside (x y : Reg) (n : Fin 16) (s : State) (hn : n.val > 0) (h : s.i.toNat + n.val - 1 > 0xFFF) :
    exec (.drw x y n) s = raise .dataOutOfBounds s :=
  if_neg (mt (drw_inside_iff s n).mp (by omega))

/-- The registers after a draw are those after its write of VF. -/
theorem readV_of_drawn (s : State) (fb : Framebuffer) (dirty : Bool) (k : Reg) :
    readV { s with fb := fb, dirty := dirty } k = readV s k := rfl

theorem flagByte_zero_or_one (f : Bool) : flagByte f = 0x00#8 ∨ flagByte f = 0x01#8 := by cases f <;> simp [flagByte]

theorem flagByte_eq_one_iff (f : Bool) : flagByte f = 0x01#8 ↔ f = true := by cases f <;> simp [flagByte]

/-! ## The flat framebuffer (10_state.md R32) -/

/-- Element `r * k + c` of lists of length `k` joined is element `c` of the `r`-th. -/
theorem getElem?_flatten_of_length {α : Type} (k : Nat) (ls : List (List α)) (hk : ∀ l ∈ ls, l.length = k) (r c : Nat)
    (hr : r < ls.length) (hc : c < k) : ls.flatten[r * k + c]? = ls[r][c]? := by
  induction ls generalizing r with
  | nil => simp at hr
  | cons l ls ih =>
    have hl : l.length = k := hk l (by simp)
    cases r with
    | zero =>
      rw [List.flatten_cons, Nat.zero_mul, Nat.zero_add, List.getElem?_append_left (by omega), List.getElem_cons_zero]
    | succ r =>
      have hpos : (r + 1) * k + c = l.length + (r * k + c) := by rw [hl]; ring
      rw [hpos, List.flatten_cons, List.getElem?_append_right (by omega), Nat.add_sub_cancel_left]
      simpa using ih (fun m hm => hk m (by simp [hm])) r (by simpa using hr)

theorem flatFramebuffer_eq (fb : Framebuffer) : flatFramebuffer fb = (fb.toList.map Vector.toList).flatten := by
  simp [flatFramebuffer, List.flatMap_def]

end Sys2Proof.Machine
end

section
/-! The obligations on DRW, on accesses above memory, and on the flat framebuffer (44_display.md, 20_memory.md R62). -/

namespace Sys2Proof
open Machine

/-- Settles O36: each of the four checks fails before anything is written, and `pc` is the instruction's address
advanced. -/
theorem dataAboveMemoryTakesFault : Obligations.DataAboveMemoryTakesFault := by
  intro s a hpc
  rw [← raise_of_pc .dataOutOfBounds s a hpc]
  exact ⟨fun x => exec_ldBVx_of_outside x s, fun x => exec_ldMemVx_of_outside x s, fun x => exec_ldVxMem_of_outside x s,
    fun x y n => exec_drw_of_outside x y n s⟩

/-- Settles O43: what the sprite's bits do, said of the pixels they hit; VF and `dirty` are the collision and the change. -/
theorem drawXorsSpritePixelwise : Obligations.DrawXorsSpritePixelwise := by
  intro x y n s h
  refine ⟨_, exec_drw_of_inside x y n s h, getPixel_drawSprite_ne_iff _ _ _ _ n s.fb, ?flag, ?flagOne, ?others, ?dirty, rfl⟩
  case flag =>
    rw [readV_of_drawn, ← regF, readV_writeV_same]
    exact flagByte_zero_or_one _
  case flagOne =>
    rw [readV_of_drawn, ← regF, readV_writeV_same, flagByte_eq_one_iff, drawn, drawSprite_collide_iff]
  case others =>
    intro k hk
    exact readV_writeV_other s regF k _ hk
  case dirty => rw [Bool.or_eq_true, drawn, drawSprite_changed_iff]

/-- Settles O44: the second draw hits the pixels that the first one hit, each now inverted; on a clear screen every pixel hit
was clear. -/
theorem drawTwiceRestoresScreen : Obligations.DrawTwiceRestoresScreen := by
  intro x y n s h
  refine ⟨_, _, exec_drw_of_inside x y n s h, exec_drw_of_inside x y n _ h, drawSprite_drawSprite_fb .., ?flag,
    fun hclear => Iff.trans ?flag ?clear⟩
  case flag =>
    rw [readV_of_drawn, ← regF, readV_writeV_same, flagByte_eq_one_iff]
    exact drawSprite_drawSprite_collide_iff s.mem s.i.toNat (readV s x) (readV s y) n s.fb
  case clear =>
    simp only [hclear, and_true]
    exact exists_spriteHits_iff_exists_bit ..

/-- Settles O45: the rows are joined in order, and each has 64 pixels. -/
theorem flatFramebufferIndex : Obligations.FlatFramebufferIndex := by
  intro fb
  have hrow : ∀ l ∈ fb.toList.map Vector.toList, l.length = 64 := by simp
  rw [flatFramebuffer_eq]
  refine ⟨?length, fun r c => ?index⟩
  case length => simp [List.length_flatten, Function.comp_def]
  case index =>
    rw [getElem?_flatten_of_length 64 _ hrow r.val c.val (by simp) c.isLt]
    simp [getPixel]

end Sys2Proof
end

section
/-! Key input (45_input.md): what SKP, SKNP and LD Vx, K answer, and which key is the lowest pressed one. -/

namespace Sys2Proof.Machine

theorem exec_skp (x : Reg) (s : State) : exec (.skp x) s = .next (skipIf (keyPressed s x) s) := rfl

theorem exec_sknp (x : Reg) (s : State) : exec (.sknp x) s = .next (skipIf (!keyPressed s x) s) := rfl

/-- The key that `V[x]` names is the one its low four bits number. -/
theorem keyPressed_eq (s : State) (x : Reg) (k : Fin 16) (hk : k.val = (readV s x).toNat % 16) :
    keyPressed s x = s.keys[k] := by
  have : lowNibble (readV s x) = k := Fin.ext ((lowNibble_val _).trans hk.symm)
  simp only [keyPressed, this]

/-- A pressed key with no lower one pressed is the one found. -/
theorem lowestPressed_eq_some (keys : Vector Bool 16) (k : Fin 16) (hk : keys[k] = true)
    (hlow : ∀ j : Fin 16, j < k → keys[j] = false) : lowestPressed keys = some k := by
  cases h : lowestPressed keys with
  | none => simp [(lowestPressed_none keys).mp h k] at hk
  | some j =>
    obtain ⟨hj, hjlow⟩ := lowestPressed_some keys j h
    rcases lt_trichotomy j k with hlt | rfl | hgt
    · simp [hlow j hlt] at hj
    · rfl
    · simp [hjlow k hgt] at hk

theorem exec_ldVxK_of_pressed (x : Reg) (s : State) (k : Fin 16) (h : lowestPressed s.keys = some k) :
    exec (.ldVxK x) s = .next (writeV s x (BitVec.ofNat 8 k.val)) := by simp only [exec, execLdVxK, h]

theorem exec_ldVxK_of_none (x : Reg) (s : State) (h : lowestPressed s.keys = none) :
    exec (.ldVxK x) s = .next { s with pc := s.pc - 2 } := by simp only [exec, execLdVxK, h]

end Sys2Proof.Machine
end

section
/-! The obligations on the key instructions (45_input.md). -/

namespace Sys2Proof
open Machine

/-- Settles O46: both instructions are a skip on whether the named key is pressed. -/
theorem keySkips : Obligations.KeySkips := by
  intro x k s hk
  refine ⟨skipsIf_of_exec (exec_skp x s) ?_, skipsIf_of_exec (exec_sknp x s) ?_⟩
  · rw [keyPressed_eq s x k hk]
  · rw [keyPressed_eq s x k hk, Bool.not_eq_true']

/-- Settles O47: a lowest pressed key is the one captured; with none pressed `pc` goes back by 2. -/
theorem keyWaitCapturesLowestKey : Obligations.KeyWaitCapturesLowestKey := by
  intro x s
  refine ⟨fun k hk hlow => ?_, fun hnone => ?_⟩
  · exact writesRegister_of_exec (exec_ldVxK_of_pressed x s k (lowestPressed_eq_some s.keys k hk hlow))
  · exact ⟨_, exec_ldVxK_of_none x s ((lowestPressed_none s.keys).mpr hnone), BitVec.sub_add_cancel s.pc 2, rfl⟩

end Sys2Proof
end

section
/-! The reset state (10_state.md R38): what memory holds in it, and that it meets the invariant. -/

namespace Sys2Proof.Machine

/-- Outside the fontset an unlisted address reads as 0. -/
theorem resetByte_of_outside_font (a : Nat) (h : a < 0x050 ∨ 0x0A0 ≤ a) : resetByte a = 0x00#8 := by
  rcases h with h | h
  · exact if_pos h
  · have hlen : fontset.length ≤ a - fontBase := Nat.le_sub_of_add_le h
    rw [resetByte, if_neg (by rw [fontBase]; omega), List.getD_eq_default _ _ hlen]

theorem coreInv_reset : CoreInv State.reset where
  memCanonical := Memory.wf_nil
  indexInMemory := by decide
  pcBounded := by decide
  stackBounded := by decide
  faultCoherent := rfl

end Sys2Proof.Machine
end

section
/-! The obligations on the reset state (10_state.md section 11, 20_memory.md section 3). -/

namespace Sys2Proof
open Machine

/-- Settles O14: the reset state lists no memory, and its other parts are literals. -/
theorem resetMeetsInvariant : Obligations.ResetMeetsInvariant := coreInv_reset

/-- Settles O15: the fields of the reset state are the table's values, and memory lists nothing. -/
theorem resetValues : Obligations.ResetValues := by
  refine ⟨by decide, rfl, rfl, by decide, rfl, rfl, rfl, ?memory, ?pixels, rfl, by decide, rfl, rfl, rfl⟩
  case memory => exact resetByte_of_outside_font
  case pixels => exact getPixel_replicate false

/-- Settles O16: the 80 bytes are literals. -/
theorem fontGlyphsAtReset : Obligations.FontGlyphsAtReset := by
  unfold Obligations.FontGlyphsAtReset
  decide

end Sys2Proof
end

section
/-! The operations of the environment other than the cycle (60_exceptions.md R260, 70_reset_and_hazards.md R292, R293): what
each answers, halted and not. -/

namespace Sys2Proof.Machine

/-! ## Loading (70_reset_and_hazards.md R292, R293) -/

theorem loadImage_of_halted (image : List Byte) (s : State) (h : s.halted = true) : loadImage image s = s := by
  simp [loadImage, h]

theorem loadImage_of_fits (image : List Byte) (s : State) (h : s.halted = false) (hl : image.length ≤ 3584) :
    loadImage image s = { s with mem := (s.mem.writeBytes 0x050 fontset).writeBytes 0x200 image } := by
  have hfits : ¬ image.length + Config.entry > Config.memSize := by rw [Config.entry, Config.memSize]; omega
  rw [loadImage, if_neg (by simp [h]), if_neg hfits]
  rfl

theorem loadImage_of_oversized (image : List Byte) (s : State) (h : s.halted = false) (hl : image.length > 3584) :
    loadImage image s = enterFault .loadOutOfBounds s.pc none s := by
  have hover : image.length + Config.entry > Config.memSize := by rw [Config.entry, Config.memSize]; omega
  rw [loadImage, if_neg (by simp [h]), if_pos hover]

/-- The fontset written over any memory reads as at reset. -/
theorem read_writeBytes_fontset (m : Memory) (k : Nat) (hk : k < 80) :
    (m.writeBytes 0x050 fontset).read (0x050 + k) = resetByte (0x050 + k) := by
  have hlen : k < fontset.length := hk
  rw [Memory.read_writeBytes_inside m 0x050 fontset k hlen, resetByte, if_neg (by rw [fontBase]; omega), fontBase,
    Nat.add_sub_cancel_left, List.getD_eq_getElem _ _ hlen]

/-! ## Ticks (R260) -/

theorem decay_toNat (t : Byte) : (decay t).toNat = t.toNat - 1 := by
  have ht : t.toNat < 256 := t.isLt
  rw [decay]
  split
  · rw [BitVec.toNat_sub_of_le (by simp [BitVec.le_def]; omega)]
    rfl
  · omega

/-- A tick changes the timers only. -/
theorem tickTimers_eq (s : State) : tickTimers s = { s with dt := (tickTimers s).dt, st := (tickTimers s).st } := by
  unfold tickTimers
  split <;> rfl

theorem tickTimers_of_halted (s : State) (h : s.halted = true) : tickTimers s = s := by simp [tickTimers, h]

end Sys2Proof.Machine
end

section
/-! The cycle (30_encoding.md R93 to R102): what it answers in each of its cases, and what a step is then. -/

namespace Sys2Proof.Machine

theorem cycle_of_halted (s : State) (h : s.halted = true) : cycle s = .next s := by simp [cycle, h]

theorem cycle_of_pc_above (s : State) (h : s.halted = false) (hp : s.pc.toNat > 0xFFE) :
    cycle s = .next (enterFault .fetchOutOfBounds s.pc none s) := by
  simp [cycle, h, lastFetch, hp]

theorem decodeExecute_of_ok {op : Word} {i : Instr} (s : State) (h : decodeWord op = .ok i) :
    decodeExecute op s = exec i s := by simp only [decodeExecute, h]

theorem decodeExecute_of_illegal {op : Word} (s : State) (h : legalWord op = false) :
    decodeExecute op s = raise .illegalOpcode s := by
  cases hd : decodeWord op with
  | ok i => simp [(decodeWord_ok_iff op).mp ⟨i, hd⟩] at h
  | error e => simp only [decodeExecute, hd]

/-- A step whose next operation is a cycle that can fetch runs the instruction that the word at `pc` decodes to. -/
theorem step_of_decodes {s : State} {rest : Schedule} {i : Instr} (hn : CycleNext s rest) (hh : s.halted = false)
    (hp : s.pc.toNat ≤ 0xFFE) (hd : decodeWord (fetchWord s.mem s.pc.toNat) = .ok i) :
    step s = exec i { s with pc := s.pc + 2, opcodeReg := fetchWord s.mem s.pc.toNat, schedule := rest } := by
  rw [step_of_cycleNext s rest hn, cycle_of_fetch { s with schedule := rest } hh hp, decodeExecute_of_ok _ hd]
  rfl

/-- A fault raised right after the fetch of `op` leaves the state that R242 gives for the address before it. -/
theorem raise_fetched (c : Cause) (op : Word) (s : State) :
    raise c (fetched op s) = .next (faultedAt { s with opcodeReg := op } c s.pc) :=
  raise_of_pc c (fetched op s) s.pc rfl

end Sys2Proof.Machine
end

section
/-! The obligations on the cycle's cases and on the operations of the environment (30_encoding.md, 60_exceptions.md,
70_reset_and_hazards.md). -/

namespace Sys2Proof
open Machine

/-- Settles O6: two bytes that decode are a word that decodes, and the cycle fetches that word. -/
theorem stepRunsDecodedInstruction : Obligations.StepRunsDecodedInstruction := by
  intro s rest i hn hh hp hd
  have hw : decodeWord (fetchWord s.mem s.pc.toNat) = .ok i := by
    simp only [decodeBytes] at hd
    split at hd
    · next j hj =>
      cases hd
      exact hj
    · cases hd
  exact step_of_decodes hn hh hp hw

/-- Settles O7: an illegal word does not decode, and the cycle raises the fault right after the fetch. -/
theorem illegalWordTakesFault : Obligations.IllegalWordTakesFault := by
  intro s rest hn hh hp hw
  rw [step_of_cycleNext s rest hn, cycle_of_fetch { s with schedule := rest } hh hp, decodeExecute_of_illegal _ hw,
    raise_fetched]

/-- Settles O8: the fetch fails before the cycle changes anything. -/
theorem fetchAboveMemoryTakesFault : Obligations.FetchAboveMemoryTakesFault := by
  intro s rest hn hh hp
  rw [step_of_cycleNext s rest hn, cycle_of_pc_above { s with schedule := rest } hh hp]
  rfl

/-- Settles O9: each of the three operations tests `halted` first. -/
theorem haltedOperationsChangeNothing : Obligations.HaltedOperationsChangeNothing := by
  intro s op rest hh hn hop
  rw [step_of_operationNext s op rest hn]
  rcases hop with rfl | rfl | ⟨image, rfl⟩
  · exact cycle_of_halted { s with schedule := rest } hh
  · rw [applyOp, tickTimers_of_halted { s with schedule := rest } hh]
  · rw [applyOp, loadImage_of_halted image { s with schedule := rest } hh]

/-- Settles O40: a tick changes the timers only, by a decay where the core is not halted. -/
theorem tickDecrementsTimers : Obligations.TickDecrementsTimers := by
  intro s rest hn
  refine ⟨_, step_of_operationNext s .tickTimers rest hn, fun hh => ?running, fun hh => ?halted, ?frame⟩
  case running => simp [hh, decay_toNat]
  case halted => simp [hh]
  case frame => rw [tickTimers_eq]

/-- Settles O54: the three written ranges are disjoint, so each address reads from the last write that covers it. -/
theorem loadPlacesImage : Obligations.LoadPlacesImage := by
  intro s image rest hn hh hl
  have hs := (step_of_operationNext s _ rest hn).trans
    (congrArg Host.Outcome.next (loadImage_of_fits image { s with schedule := rest } hh hl))
  refine ⟨_, hs, ?placed, ?font, ?others, rfl⟩
  case placed => exact Memory.read_writeBytes_inside _ 0x200 image
  case font =>
    intro k hk
    rw [Memory.read_writeBytes_other _ _ _ _ (by omega)]
    exact read_writeBytes_fontset _ k hk
  case others =>
    intro a ha
    have hfont : fontset.length = 80 := rfl
    rw [Memory.read_writeBytes_other _ _ _ _ (by omega), Memory.read_writeBytes_other _ _ _ _ (by omega)]

/-- Settles O55: the length is checked before anything is written. -/
theorem oversizedLoadTakesFault : Obligations.OversizedLoadTakesFault := by
  intro s image rest hn hh hl
  rw [step_of_operationNext s _ rest hn, applyOp, loadImage_of_oversized image { s with schedule := rest } hh hl]
  rfl

/-- Settles O56: a reset looks at the environment's inputs only. -/
theorem resetOperationResetsCore : Obligations.ResetOperationResetsCore :=
  fun s rest hn => step_of_operationNext s .reset rest hn

/-- Settles O57: a key write sets one key, an acknowledgement clears `dirty`, and neither looks at `halted`. -/
theorem keyWritesAndAcknowledgements : Obligations.KeyWritesAndAcknowledgements := by
  intro s k pressed rest
  refine ⟨fun hn => ⟨_, step_of_operationNext s _ rest hn, ?same, ?others, rfl⟩,
    fun hn => step_of_operationNext s _ rest hn⟩
  case same => simp
  case others =>
    intro j hj
    have : k.val ≠ j.val := fun e => hj (Fin.ext e.symm)
    simp [this]

end Sys2Proof
end

section
/-! What a step changes whose operation is a cycle: its cases once, and from them what each piece of state is written by. -/

namespace Sys2Proof.Machine

/-- Everything such a step can answer: the same state while halted, one of the two faults outside execution, or what the
decoded instruction answers (30_encoding.md R93). -/
theorem step_cycle_cases {s t : State} {rest : Schedule} (hn : CycleNext s rest) (h : step s = .next t) :
    (s.halted = true ∧ t = { s with schedule := rest }) ∨
    (s.halted = false ∧ s.pc.toNat > 0xFFE ∧ t = enterFault .fetchOutOfBounds s.pc none { s with schedule := rest }) ∨
    (s.halted = false ∧ s.pc.toNat ≤ 0xFFE ∧
      t = faultedAt { s with opcodeReg := fetchWord s.mem s.pc.toNat, schedule := rest } .illegalOpcode s.pc) ∨
    (s.halted = false ∧ s.pc.toNat ≤ 0xFFE ∧ ∃ i, decodeWord (fetchWord s.mem s.pc.toNat) = .ok i ∧
      exec i (fetched (fetchWord s.mem s.pc.toNat) { s with schedule := rest }) = .next t) := by
  rw [step_of_cycleNext s rest hn] at h
  rcases cycle_cases { s with schedule := rest } with
    ⟨hh, hc⟩ | ⟨hh, hp, hc⟩ | ⟨hh, hp, e, hd, hc⟩ | ⟨hh, hp, i, hd, hc⟩ <;> rw [hc] at h
  · cases h
    exact .inl ⟨hh, rfl⟩
  · cases h
    exact .inr (.inl ⟨hh, hp, rfl⟩)
  · rw [raise_fetched] at h
    cases h
    exact .inr (.inr (.inl ⟨hh, hp, rfl⟩))
  · exact .inr (.inr (.inr ⟨hh, hp, i, hd, h⟩))

/-- A cycle has the effect of the instruction it executes, or changes `opcode_reg`, `halted` and the record at most. -/
theorem step_cycle_effect {s t : State} {rest : Schedule} (hn : CycleNext s rest) (h : step s = .next t) :
    (∃ i, decodeWord (fetchWord s.mem s.pc.toNat) = .ok i ∧
      ExecEffect i (fetched (fetchWord s.mem s.pc.toNat) { s with schedule := rest }) t) ∨
    ∃ op halted fault, t = { s with opcodeReg := op, halted := halted, fault := fault, schedule := rest } := by
  rcases step_cycle_cases hn h with ⟨-, rfl⟩ | ⟨-, -, rfl⟩ | ⟨-, -, rfl⟩ | ⟨-, -, i, hd, hx⟩
  · exact .inr ⟨_, _, _, rfl⟩
  · exact .inr ⟨_, _, _, rfl⟩
  · exact .inr ⟨_, _, _, rfl⟩
  · exact .inl ⟨i, hd, exec_effect i _ t hx⟩

end Sys2Proof.Machine
end

section
/-! The obligations on what a cycle writes (10_state.md, 20_memory.md section 2, 60_exceptions.md section 3). -/

namespace Sys2Proof
open Machine

/-- Settles O41: the effect of the executed instruction names the timer's writer; a cycle that executes none keeps both. -/
theorem cyclesNeverDecayTimers : Obligations.CyclesNeverDecayTimers := by
  intro s t rest hn h
  rcases step_cycle_effect hn h with ⟨i, hd, he⟩ | ⟨op, halted, fault, rfl⟩
  · refine ⟨fun hne => ?_, fun hne => ?_⟩
    · obtain ⟨x, rfl, hx⟩ := he.dt hne
      exact ⟨x, hd, hx⟩
    · obtain ⟨x, rfl, hx⟩ := he.st hne
      exact ⟨x, hd, hx⟩
  · exact ⟨fun hne => absurd rfl hne, fun hne => absurd rfl hne⟩

/-- Settles O49: as O41, for memory, the pixels, the keys and `dirty`. -/
theorem onlyStoresAndDrawsWriteOut : Obligations.OnlyStoresAndDrawsWriteOut := by
  intro s t rest hn h
  rcases step_cycle_effect hn h with ⟨i, hd, he⟩ | ⟨op, halted, fault, rfl⟩
  · refine ⟨he.keys, he.dirty, fun hne => ?_, fun hne => ?_⟩
    · obtain ⟨x, rfl | rfl⟩ := he.mem hne
      · exact ⟨x, .inl hd⟩
      · exact ⟨x, .inr hd⟩
    · obtain rfl | ⟨x, y, n, rfl⟩ := he.fb hne
      · exact .inl hd
      · exact .inr ⟨x, y, n, hd⟩
  · exact ⟨rfl, id, fun hne => absurd rfl hne, fun hne => absurd rfl hne⟩

/-- Settles O50: as O41, for `I` and the stack. -/
theorem onlyNamedInstructionsWriteIndexAndStack : Obligations.OnlyNamedInstructionsWriteIndexAndStack := by
  intro s t rest hn h
  rcases step_cycle_effect hn h with ⟨i, hd, he⟩ | ⟨op, halted, fault, rfl⟩
  · refine ⟨fun hne => ?_, fun hne => ?_, fun hne => ?_⟩
    · obtain ⟨nnn, rfl⟩ | ⟨x, rfl⟩ | ⟨x, rfl⟩ := he.index hne
      · exact .inl ⟨nnn, hd⟩
      · exact .inr (.inl ⟨x, hd⟩)
      · exact .inr (.inr ⟨x, hd⟩)
    · obtain ⟨nnn, rfl⟩ | rfl := he.sp hne
      · exact .inl ⟨nnn, hd⟩
      · exact .inr hd
    · obtain ⟨nnn, rfl⟩ := he.stack hne
      exact ⟨nnn, hd⟩
  · exact ⟨fun hne => absurd rfl hne, fun hne => absurd rfl hne, fun hne => absurd rfl hne⟩

/-- Settles O51: as O41, for VF. -/
theorem onlyFlagWritersChangeVF : Obligations.OnlyFlagWritersChangeVF := by
  intro s t rest hn h hne
  rcases step_cycle_effect hn h with ⟨i, hd, he⟩ | ⟨op, halted, fault, rfl⟩
  · exact ⟨i, hd, he.flag hne⟩
  · exact absurd rfl hne

/-- Settles O11: a cycle that enters the halted state failed its fetch, met an illegal word or executed an instruction that
raised, and each of these is fault entry for the pc before the step. -/
theorem faultsArePrecise : Obligations.FaultsArePrecise := by
  intro s t rest hn hh h ht
  rcases step_cycle_cases hn h with ⟨hs, -⟩ | ⟨-, hp, rfl⟩ | ⟨-, hp, rfl⟩ | ⟨-, hp, i, hd, hx⟩
  · simp [hs] at hh
  · exact ⟨rfl, nofun, rfl, fun _ => ⟨rfl, rfl⟩, fun hle => absurd hp (by omega)⟩
  · exact ⟨rfl, nofun, rfl, fun hgt => absurd hp (by omega), fun _ => ⟨rfl, rfl⟩⟩
  · obtain ⟨hsame, -⟩ | ⟨c, hc, rfl⟩ := (exec_effect i _ t hx).fault
    · rw [ht, fetched_halted, hh] at hsame
      cases hsame
    · have ha : (fetched (fetchWord s.mem s.pc.toNat) { s with schedule := rest }).pc - 2 = s.pc :=
        BitVec.add_sub_cancel s.pc 2
      have hcause : c ≠ .noCause := by
        rintro rfl
        cases hc
      rw [ha]
      exact ⟨rfl, hcause, rfl, fun hgt => absurd hp (by omega), fun _ => ⟨rfl, rfl⟩⟩

/-- Settles O10: in a halted state a cycle, a tick and a load change nothing, a key write and an acknowledgement the keys and
the flag. -/
theorem haltedUntilReset : Obligations.HaltedUntilReset := by
  intro s t hh hreset h
  rcases step_cases s with ⟨-, hs⟩ | ⟨op, rest, hn, hs⟩
  · cases hs.symm.trans h
    exact ⟨hh, rfl⟩
  · have hnothing := haltedOperationsChangeNothing s op rest hh hn
    cases op with
    | reset => exact absurd hn (hreset rest)
    | cycle | tickTimers | load image =>
      cases (hnothing (by simp)).symm.trans h
      exact ⟨hh, rfl⟩
    | setKey | ackRender =>
      cases hs.symm.trans h
      exact ⟨hh, rfl⟩

end Sys2Proof
end

section
/-! Every instruction and every operation answers a next state (60_exceptions.md R242, R245). -/

namespace Sys2Proof.Machine

theorem exec_answers_next (i : Instr) (s : State) : ∃ t, exec i s = .next t := by
  cases i with
  | ret =>
    by_cases hsp : s.sp.val = 0
    · exact ⟨_, exec_ret_of_empty s hsp⟩
    · exact ⟨_, exec_ret_of_entry s hsp⟩
  | call nnn =>
    by_cases hsp : s.sp.val < 16
    · exact ⟨_, exec_call_of_room nnn s hsp⟩
    · exact ⟨_, exec_call_of_full nnn s (by omega)⟩
  | ldBVx | ldMemVx | ldVxMem | drw =>
    simp only [exec, execLdBVx, execLdMemVx, execLdVxMem, execDrw]
    split <;> exact ⟨_, rfl⟩
  | ldVxK x =>
    cases hk : lowestPressed s.keys with
    | none => exact ⟨_, exec_ldVxK_of_none x s hk⟩
    | some k => exact ⟨_, exec_ldVxK_of_pressed x s k hk⟩
  | _ => exact ⟨_, rfl⟩

theorem cycle_answers_next (s : State) : ∃ t, cycle s = .next t := by
  rcases cycle_cases s with ⟨-, hc⟩ | ⟨-, -, hc⟩ | ⟨-, -, e, -, hc⟩ | ⟨-, -, i, -, hc⟩
  · exact ⟨_, hc⟩
  · exact ⟨_, hc⟩
  · exact ⟨_, hc⟩
  · rw [hc]
    exact exec_answers_next i _

theorem applyOp_answers_next (op : HostOp) (s : State) : ∃ t, applyOp op s = .next t := by
  cases op with
  | cycle => exact cycle_answers_next s
  | _ => exact ⟨_, rfl⟩

end Sys2Proof.Machine
end

section
/-! The obligation that every step answers a next state (60_exceptions.md sections 1 and 4). -/

namespace Sys2Proof
open Machine

/-- Settles O12: a step is nothing where no operation is next, or one operation, and each of these answers a next state. -/
theorem everyStepAnswersNext : Obligations.EveryStepAnswersNext := by
  intro s
  rcases step_cases s with ⟨hn, hs⟩ | ⟨op, rest, hn, hs⟩
  · exact ⟨⟨s, hs⟩, fun _ => hs⟩
  · refine ⟨hs ▸ applyOp_answers_next op _, fun hnone => ?_⟩
    rw [hnone] at hn
    cases hn

end Sys2Proof
end

section
/-! The invariant of the core (10_state.md R24, R26, 40_control.md R122, 60_exceptions.md R242): each of its parts is kept by
every operation. -/

namespace Sys2Proof.Machine

/-! ## The parts that executing an instruction keeps -/

section
variable {i : Instr} {s t : State}

/-- The two stores write inside memory or raise; nothing else writes memory. -/
theorem exec_mem_wf (h : exec i s = .next t) (hm : s.mem.wf) : t.mem.wf := by
  by_cases hsame : t.mem = s.mem
  · rwa [hsame]
  · obtain ⟨x, rfl | rfl⟩ := (exec_effect i s t h).mem hsame
    · rcases le_or_gt (s.i.toNat + 2) 0xFFF with hin | hout
      · cases (exec_ldBVx_of_inside x s hin).symm.trans h
        exact Memory.writeBytes_wf _ _ _ hm (Nat.succ_le_succ hin)
      · cases (exec_ldBVx_of_outside x s hout).symm.trans h
        exact hm
    · rcases le_or_gt (s.i.toNat + x.val) 0xFFF with hin | hout
      · cases (exec_ldMemVx_of_inside x s hin).symm.trans h
        exact Memory.writeBytes_wf _ _ _ hm (by rw [registersUpTo_length]; exact Nat.succ_le_succ hin)
      · cases (exec_ldMemVx_of_outside x s hout).symm.trans h
        exact hm

/-- Each of the three writers of `I` leaves an address of memory in it. -/
theorem exec_index_le (h : exec i s = .next t) (hi : s.i.toNat ≤ 0xFFF) : t.i.toNat ≤ 0xFFF := by
  by_cases hsame : t.i = s.i
  · rwa [hsame]
  · obtain ⟨nnn, rfl⟩ | ⟨x, rfl⟩ | ⟨x, rfl⟩ := (exec_effect i s t h).index hsame
    · cases (exec_ldI nnn s).symm.trans h
      have hlt : nnn.toNat < 4096 := nnn.isLt
      rw [zextAddr_toNat]
      omega
    · cases (exec_addIVx x s).symm.trans h
      rw [indexSum_toNat]
      omega
    · cases (exec_ldFVx x s).symm.trans h
      rw [glyphAddress_toNat]
      omega

/-- CALL alone writes the stack, and what it pushes is `pc`. -/
theorem exec_stack_le (h : exec i s = .next t) (hpc : s.pc.toNat ≤ 0x1000)
    (hs : ∀ k : Fin 16, s.stack[k].toNat ≤ 0x1000) : ∀ k : Fin 16, t.stack[k].toNat ≤ 0x1000 := by
  by_cases hsame : t.stack = s.stack
  · rwa [hsame]
  · obtain ⟨nnn, rfl⟩ := (exec_effect i s t h).stack hsame
    rcases Nat.lt_or_ge s.sp.val 16 with hsp | hsp
    · cases (exec_call_of_room nnn s hsp).symm.trans h
      intro k
      rw [Fin.getElem_fin, Vector.getElem_set]
      split
      · exact hpc
      · exact hs k
    · cases (exec_call_of_full nnn s (by omega)).symm.trans h
      exact hs

/-- Where `pc` can stand after an instruction: where the advance left it, 2 on or 2 back, at a target, at an offset target,
or at a stack entry. -/
theorem exec_pc_cases (h : exec i s = .next t) :
    t.pc = s.pc ∨ t.pc = s.pc + 2 ∨ t.pc = s.pc - 2 ∨ (∃ nnn, t.pc = zextAddr nnn) ∨
      (∃ b nnn, t.pc = zextByte b + zextAddr nnn) ∨ ∃ k : Fin 16, t.pc = s.stack[k] := by
  cases i with
  | jp nnn =>
    cases h
    exact .inr (.inr (.inr (.inl ⟨nnn, rfl⟩)))
  | jpV0 nnn =>
    cases h
    exact .inr (.inr (.inr (.inr (.inl ⟨_, nnn, rfl⟩))))
  | ret =>
    by_cases hsp : s.sp.val = 0
    · cases (exec_ret_of_empty s hsp).symm.trans h
      exact .inr (.inr (.inl rfl))
    · cases (exec_ret_of_entry s hsp).symm.trans h
      exact .inr (.inr (.inr (.inr (.inr ⟨⟨s.sp.val - 1, by omega⟩, rfl⟩))))
  | call nnn =>
    rcases Nat.lt_or_ge s.sp.val 16 with hsp | hsp
    · cases (exec_call_of_room nnn s hsp).symm.trans h
      exact .inr (.inr (.inr (.inl ⟨nnn, rfl⟩)))
    · cases (exec_call_of_full nnn s (by omega)).symm.trans h
      exact .inr (.inr (.inl rfl))
  | seVxKk | sneVxKk | seVxVy | sneVxVy | skp | sknp =>
    cases h
    rw [skipIf_pc]
    split
    · exact .inr (.inl rfl)
    · exact .inl rfl
  | ldVxK x =>
    cases hk : lowestPressed s.keys with
    | none =>
      cases (exec_ldVxK_of_none x s hk).symm.trans h
      exact .inr (.inr (.inl rfl))
    | some k =>
      cases (exec_ldVxK_of_pressed x s k hk).symm.trans h
      exact .inl rfl
  | ldBVx | ldMemVx | ldVxMem | drw =>
    simp only [exec, execLdBVx, execLdMemVx, execLdVxMem, execDrw] at h
    split at h <;> cases h
    · exact .inl rfl
    · exact .inr (.inr (.inl rfl))
  | rnd x kk =>
    cases h
    exact .inl (afterDraw_pc s)
  | _ =>
    cases h
    exact .inl rfl

theorem exec_pc_le (h : exec i s = .next t) (hlow : 2 ≤ s.pc.toNat) (hpc : s.pc.toNat ≤ 0x1000)
    (hs : ∀ k : Fin 16, s.stack[k].toNat ≤ 0x1000) : t.pc.toNat ≤ 0x10FE := by
  rcases exec_pc_cases h with e | e | e | ⟨nnn, e⟩ | ⟨b, nnn, e⟩ | ⟨k, e⟩ <;> rw [e]
  · omega
  · bv_omega
  · bv_omega
  · have hn : nnn.toNat < 4096 := nnn.isLt
    rw [zextAddr_toNat]
    omega
  · have hb : b.toNat < 256 := b.isLt
    have hn : nnn.toNat < 4096 := nnn.isLt
    rw [zextByte_add_zextAddr_toNat]
    omega
  · exact (hs k).trans (by decide)

end

/-! ## The fault record -/

/-- A core that runs has recorded nothing. -/
theorem CoreInv.fault_eq_empty {s : State} (h : CoreInv s) (hh : s.halted = false) : s.fault = FaultRecord.empty := by
  have hf := h.faultCoherent
  rwa [FaultCoherent, hh] at hf

/-- A failed fetch or load records no opcode. -/
theorem faultCoherent_enterFault_none (s : State) (c : Cause) (a : Word) (hc : c = .fetchOutOfBounds ∨ c = .loadOutOfBounds) :
    FaultCoherent (enterFault c a none s) := by
  rcases hc with rfl | rfl <;> simp [FaultCoherent]

/-- Every other fault records the word in `opcode_reg`. -/
theorem faultCoherent_enterFault_opcode (s : State) (c : Cause) (a : Word)
    (hc : isExecuteCause c = true ∨ c = .illegalOpcode) : FaultCoherent (enterFault c a (some s.opcodeReg) s) := by
  have hcause : c ≠ .noCause ∧ c ≠ .fetchOutOfBounds ∧ c ≠ .loadOutOfBounds := by
    rcases hc with hc | rfl
    · refine ⟨?_, ?_, ?_⟩ <;> (rintro rfl; cases hc)
    · decide
  simp [FaultCoherent, hcause]

/-! ## The invariant -/

/-- The invariant speaks of seven fields only. -/
theorem CoreInv.congr {s t : State} (h : CoreInv s) (hmem : t.mem = s.mem) (hi : t.i = s.i) (hpc : t.pc = s.pc)
    (hstack : t.stack = s.stack) (hhalt : t.halted = s.halted) (hfault : t.fault = s.fault)
    (hop : t.opcodeReg = s.opcodeReg) : CoreInv t where
  memCanonical := hmem ▸ h.memCanonical
  indexInMemory := hi ▸ h.indexInMemory
  pcBounded := hpc ▸ h.pcBounded
  stackBounded := hstack ▸ h.stackBounded
  faultCoherent := by
    simpa only [FaultCoherent, hhalt, hfault, hop, hpc] using h.faultCoherent

/-- Fault entry at `pc` itself keeps the invariant where its record is coherent. -/
theorem CoreInv.of_enterFault {s : State} (h : CoreInv s) {c : Cause} {op : Option Word}
    (hf : FaultCoherent (enterFault c s.pc op s)) : CoreInv (enterFault c s.pc op s) :=
  { h with faultCoherent := hf }

/-- An instruction executed after its fetch, from a state that meets the invariant, answers one that does. -/
theorem CoreInv.of_exec_fetched {i : Instr} {op : Word} {s t : State} (h : CoreInv s) (hh : s.halted = false)
    (hp : s.pc.toNat ≤ 0xFFE) (hx : exec i (fetched op s) = .next t) : CoreInv t where
  memCanonical := exec_mem_wf hx h.memCanonical
  indexInMemory := exec_index_le hx h.indexInMemory
  pcBounded := exec_pc_le hx (by rw [fetched_pc]; bv_omega) (by rw [fetched_pc]; bv_omega) h.stackBounded
  stackBounded := exec_stack_le hx (by rw [fetched_pc]; bv_omega) h.stackBounded
  faultCoherent := by
    obtain ⟨hhalt, hfault⟩ | ⟨c, hc, rfl⟩ := (exec_effect i _ t hx).fault
    · rw [FaultCoherent, hhalt, hfault, fetched_halted, hh, fetched_fault, h.fault_eq_empty hh]
      rfl
    · exact faultCoherent_enterFault_opcode _ c _ (.inl hc)

theorem CoreInv.of_cycle {s t : State} (h : CoreInv s) (hc : cycle s = .next t) : CoreInv t := by
  rcases cycle_cases s with ⟨-, e⟩ | ⟨-, -, e⟩ | ⟨-, -, _, -, e⟩ | ⟨hh, hp, i, -, e⟩ <;> rw [e] at hc
  · cases hc
    exact h
  · cases hc
    exact h.of_enterFault (faultCoherent_enterFault_none s _ _ (.inl rfl))
  · cases (raise_fetched _ _ s).symm.trans hc
    exact { h with faultCoherent := faultCoherent_enterFault_opcode (fetched _ s) .illegalOpcode s.pc (.inr rfl) }
  · exact h.of_exec_fetched hh hp hc

/-- A load writes the fontset and an image that fits, both inside memory. -/
theorem CoreInv.of_loadImage {s : State} (h : CoreInv s) (image : List Byte) : CoreInv (loadImage image s) := by
  by_cases hh : s.halted = true
  · rwa [loadImage_of_halted image s hh]
  · have hrun : s.halted = false := by simpa using hh
    rcases le_or_gt image.length 3584 with hfit | hover
    · rw [loadImage_of_fits image s hrun hfit]
      have hfont : (s.mem.writeBytes 0x050 fontset).wf := Memory.writeBytes_wf _ _ _ h.memCanonical (by decide)
      have himage : 0x200 + image.length ≤ Config.memSize := by rw [Config.memSize]; omega
      exact { h with memCanonical := Memory.writeBytes_wf _ _ _ hfont himage }
    · rw [loadImage_of_oversized image s hrun hover]
      exact h.of_enterFault (faultCoherent_enterFault_none s _ _ (.inr rfl))

theorem CoreInv.of_applyOp {s t : State} (h : CoreInv s) (op : HostOp) (ha : applyOp op s = .next t) : CoreInv t := by
  cases op with
  | reset =>
    cases ha
    exact coreInv_reset.congr rfl rfl rfl rfl rfl rfl rfl
  | load image =>
    cases ha
    exact h.of_loadImage image
  | cycle => exact h.of_cycle ha
  | tickTimers =>
    cases ha
    exact h.congr (tickTimers_mem s) (tickTimers_i s) (tickTimers_pc s) (tickTimers_stack s) (tickTimers_halted s)
      (tickTimers_fault s) (tickTimers_opcodeReg s)
  | setKey | ackRender =>
    cases ha
    exact h.congr rfl rfl rfl rfl rfl rfl rfl

end Sys2Proof.Machine
end

section
/-! The obligation on the invariant of the core. -/

namespace Sys2Proof
open Machine

/-- Settles O13: a step is nothing or one operation, and each operation keeps the invariant, which does not speak of the
schedule. -/
theorem stepKeepsInvariant : Obligations.StepKeepsInvariant := by
  intro s t h hs
  rcases step_cases s with ⟨-, e⟩ | ⟨op, rest, -, e⟩ <;> rw [e] at hs
  · cases hs
    exact h
  · have hrest : CoreInv { s with schedule := rest } := h.congr rfl rfl rfl rfl rfl rfl rfl
    exact hrest.of_applyOp op hs

end Sys2Proof
end

section
/-! Which word a cycle fetches: after a store, after a launch, after a word was placed, at a parked jump. -/

namespace Sys2Proof.Machine

/-- Memory that holds the two bytes of a word, high byte first, is fetched as that word. -/
theorem fetchWord_eq {m : Memory} {a : Nat} {high low : Byte} (hh : m.read a = high) (hl : m.read (a + 1) = low) :
    fetchWord m a = composeWord high low := by
  rw [fetchWord, hh, hl]

/-- A run of at least two written bytes is fetched at its head as their word. -/
theorem fetchWord_writeBytes (m : Memory) (a : Nat) (bs : List Byte) (h : 2 ≤ bs.length) :
    fetchWord (m.writeBytes a bs) a = composeWord bs[0] bs[1] :=
  fetchWord_eq (Memory.read_writeBytes_inside m a bs 0 (by omega)) (Memory.read_writeBytes_inside m a bs 1 (by omega))

/-! ## A placed word (log entry 16) -/

theorem placeWord_pc_le (s : State) (op : Word) : (placeWord s op).pc.toNat ≤ 0xFFE := by
  simp only [placeWord]
  split
  · decide
  · next h => exact Nat.le_of_not_lt h

theorem fetchWord_placeWord (s : State) (op : Word) : fetchWord (placeWord s op).mem (placeWord s op).pc.toNat = op :=
  (fetchWord_writeBytes _ _ (wordBytes op) (Nat.le_refl 2)).trans (composeWord_wordBytes op)

theorem tableWord_toNat (op : Word) : tableWord 16 op.toNat = op := by
  rw [tableWord, Nat.mod_eq_of_lt op.isLt, BitVec.ofNat_toNat, BitVec.setWidth_eq]

/-! ## The word of a jump (70_reset_and_hazards.md R304) -/

/-- The word of a jump is `0x1000` with the target in its low bits. -/
theorem encode_jp (nnn : Addr) : encode (.jp nnn) = 0x1000#16 ||| zextAddr nnn := by
  apply BitVec.eq_of_toNat_eq
  rw [encode, BitVec.toNat_append, BitVec.toNat_or, zextAddr_toNat]
  rfl

/-- An address below 4096 is the target of a jump. -/
theorem zextAddr_setWidth (w : Word) (h : w.toNat ≤ 0xFFF) : zextAddr (w.setWidth 12) = w := by
  apply BitVec.eq_of_toNat_eq
  rw [zextAddr_toNat, BitVec.toNat_setWidth]
  omega

theorem decodeWord_jump (w : Word) (h : w.toNat ≤ 0xFFF) : decodeWord (0x1000#16 ||| w) = .ok (.jp (w.setWidth 12)) := by
  conv_lhs => rw [← zextAddr_setWidth w h]
  rw [← encode_jp, decodeWord_encode]

/-- A parked core's cycle executes the jump to where it stands. -/
theorem step_of_parked {s : State} {rest : Schedule} (hp : Parked s) (hn : CycleNext s rest) :
    step s = .next { s with opcodeReg := 0x1000#16 ||| s.pc, schedule := rest } := by
  obtain ⟨hh, hpc, hw⟩ := hp
  have hlow : s.pc.toNat ≤ 0xFFF := by omega
  have hd := decodeWord_jump s.pc hlow
  rw [← hw] at hd
  rw [step_of_decodes hn hh hpc hd, exec_jp, zextAddr_setWidth s.pc hlow, hw]

/-- Only the word at `pc`, `pc` and `halted` matter for being parked. -/
theorem Parked.congr {s t : State} (h : Parked s) (hhalt : t.halted = s.halted) (hpc : t.pc = s.pc)
    (hmem : t.mem = s.mem) : Parked t := by
  rwa [Parked, hhalt, hpc, hmem]

end Sys2Proof.Machine
end

section
/-! The obligations on the word that a cycle fetches (20_memory.md section 5, 45_input.md, 70_reset_and_hazards.md). -/

namespace Sys2Proof
open Machine

/-- Settles O38: the two registers stand at `a` and `a + 1`, so they are the word that is fetched. -/
theorem storedCodeIsFetched : Obligations.StoredCodeIsFetched := by
  intro x j k s rest a i hi hh hn ha hk hkx hd
  have hkx' : k.val ≤ x.val := hkx
  have hjx : j ≤ x := by rw [Fin.le_def]; omega
  refine ⟨_, exec_ldMemVx_of_inside x s hi, ?_⟩
  have hw : fetchWord (s.mem.writeBytes s.i.toNat (registersUpTo s x)) a.toNat = composeWord (readV s j) (readV s k) := by
    have ha' : a.toNat + 1 = s.i.toNat + k.val := by omega
    refine fetchWord_eq ?_ ?_
    · rw [ha, read_writeBytes_registersUpTo _ _ s x j hjx]
    · rw [ha', read_writeBytes_registersUpTo _ _ s x k hkx]
  rw [← hw] at hd ⊢
  exact step_of_decodes (s := { s with pc := a, mem := _ }) hn hh (by simp only; omega) hd

/-- Settles O48: the waiting instruction takes the advance back, and nothing else moved. -/
theorem keyWaitSpins : Obligations.KeyWaitSpins := by
  intro s rest x hn hh hp hd hk
  have hnone := (lowestPressed_none s.keys).mpr hk
  refine ⟨{ s with opcodeReg := fetchWord s.mem s.pc.toNat, schedule := rest }, ?_, rfl, x, hh, hp, hnone, hd, rfl, rfl⟩
  rw [step_of_decodes hn hh hp hd, exec_ldVxK_of_none, BitVec.add_sub_cancel]
  exact hnone

/-- Settles O53: a cycle executes the jump to `pc`, and the other three operations touch nothing that parking rests on. -/
theorem parkedStaysParked : Obligations.ParkedStaysParked := by
  intro s t hp hreset hload h
  rcases step_cases s with ⟨-, hs⟩ | ⟨op, rest, hn, hs⟩
  · cases hs.symm.trans h
    exact ⟨hp, rfl, rfl, rfl, rfl, rfl, rfl, rfl, .inl rfl⟩
  · cases op with
    | reset => exact absurd hn (hreset rest)
    | load image => exact absurd hn (hload image rest)
    | cycle =>
      cases (step_of_parked hp hn).symm.trans h
      exact ⟨hp.congr rfl rfl rfl, rfl, rfl, rfl, rfl, rfl, rfl, rfl, .inr rfl⟩
    | tickTimers =>
      cases hs.symm.trans h
      rw [tickTimers_eq]
      exact ⟨hp.congr rfl rfl rfl, rfl, rfl, rfl, rfl, rfl, rfl, rfl, .inl rfl⟩
    | setKey | ackRender =>
      cases hs.symm.trans h
      exact ⟨hp.congr rfl rfl rfl, rfl, rfl, rfl, rfl, rfl, rfl, rfl, .inl rfl⟩

/-- Settles O58: after the load the image stands at 0x200, where `pc` is. -/
theorem launchFetchesImageHead : Obligations.LaunchFetchesImageHead := by
  intro image s rest i hlen ⟨hfit, hs⟩ hn hd
  rw [loadImage_of_fits image State.reset rfl hfit] at hs
  have hh : s.halted = false := by rw [hs]; rfl
  have hpc : s.pc = 0x200#16 := by rw [hs]; rfl
  have hmem : s.mem = (State.reset.mem.writeBytes 0x050 fontset).writeBytes 0x200 image := by rw [hs]
  have hw : fetchWord s.mem s.pc.toNat = composeWord image[0] image[1] := by
    rw [hmem, hpc]
    exact fetchWord_writeBytes _ 0x200 image hlen
  refine ⟨hh, ?_⟩
  rw [← hw] at hd ⊢
  rw [step_of_decodes hn hh (by rw [hpc]; decide) hd, hpc]
  rfl

/-- Settles O59: the placed bytes are fetched as the encoded word, which decodes to its instruction. -/
theorem placedWordRunsNext : Obligations.PlacedWordRunsNext := by
  intro s i
  rw [State.withFetchWord, tableWord_toNat]
  obtain ⟨rest, hn⟩ := cycleNext_placeWord s (encode i)
  have hw := fetchWord_placeWord s (encode i)
  have hd := decodeWord_encode i
  refine ⟨rest, hn, ?_⟩
  rw [← hw] at hd
  rw [step_of_decodes hn rfl (placeWord_pc_le s _) hd, hw]

end Sys2Proof
end

section
/-! Which step uses up a random draw (00_scope.md R13), and that no instruction reads ST or `dirty`. -/

namespace Sys2Proof.Machine

/-! ## Draws -/

/-- What `executesRandom` tests. -/
theorem executesRandom_iff (s : State) : executesRandom s = true ↔
    ∃ rest x kk, CycleNext s rest ∧ s.halted = false ∧ s.pc.toNat ≤ 0xFFE ∧
      decodeWord (fetchWord s.mem s.pc.toNat) = .ok (.rnd x kk) := by
  simp only [executesRandom, CycleNext, OperationNext]
  constructor
  · intro h
    split at h
    · next rest hn =>
      simp only [Bool.and_eq_true, Bool.not_eq_true', decide_eq_true_eq] at h
      obtain ⟨⟨hh, hp⟩, hd⟩ := h
      split at hd
      · next x kk hdec => exact ⟨rest, x, kk, hn, hh, hp, hdec⟩
      · cases hd
    · cases h
  · rintro ⟨rest, x, kk, hn, hh, hp, hd⟩
    simp [hn, hh, hp, hd]

theorem loadImage_draws (image : List Byte) (s : State) :
    (loadImage image s).draws = s.draws ∧ (loadImage image s).drawCount = s.drawCount := by
  unfold loadImage
  split
  · exact ⟨rfl, rfl⟩
  · split <;> exact ⟨rfl, rfl⟩

/-- A cycle that uses up a draw executes Cxkk. -/
theorem executesRandom_of_draws_ne {s t : State} {rest : Schedule} (hn : CycleNext s rest) (h : step s = .next t)
    (hne : ¬ (t.draws = s.draws ∧ t.drawCount = s.drawCount)) : executesRandom s = true := by
  rcases step_cycle_cases hn h with ⟨-, rfl⟩ | ⟨-, -, rfl⟩ | ⟨-, -, rfl⟩ | ⟨hh, hp, i, hd, hx⟩
  · exact absurd ⟨rfl, rfl⟩ hne
  · exact absurd ⟨rfl, rfl⟩ hne
  · exact absurd ⟨rfl, rfl⟩ hne
  · obtain ⟨x, kk, rfl⟩ := (exec_effect i _ t hx).draws hne
    exact (executesRandom_iff s).mpr ⟨rest, x, kk, hn, hh, hp, hd⟩

/-- A step that uses up a draw is a cycle that executes Cxkk: no other operation touches the draws. -/
theorem step_keeps_draws {s t : State} (h : step s = .next t) (hr : executesRandom s = false) :
    t.draws = s.draws ∧ t.drawCount = s.drawCount := by
  rcases step_cases s with ⟨-, hs⟩ | ⟨op, rest, hn, hs⟩
  · cases hs.symm.trans h
    exact ⟨rfl, rfl⟩
  · cases op with
    | cycle =>
      by_contra hne
      simp [executesRandom_of_draws_ne hn h hne] at hr
    | load image =>
      cases hs.symm.trans h
      exact loadImage_draws image _
    | tickTimers =>
      cases hs.symm.trans h
      rw [tickTimers_draws, tickTimers_drawCount]
      exact ⟨rfl, rfl⟩
    | reset | setKey | ackRender =>
      cases hs.symm.trans h
      exact ⟨rfl, rfl⟩

/-! ## Outputs -/

/-- A skip moves `pc` whatever ST and `dirty` hold. -/
theorem skipIf_outputs (c : Bool) (s : State) (st : Byte) (dirty : Bool) :
    skipIf c { s with st := st, dirty := dirty } = { skipIf c s with st := st, dirty := dirty } := by cases c <;> rfl

/-- Using up a draw looks at the draw fields only. -/
theorem afterDraw_outputs (s : State) (st : Byte) (dirty : Bool) :
    afterDraw { s with st := st, dirty := dirty } = { afterDraw s with st := st, dirty := dirty } := by
  simp only [afterDraw]
  cases s.draws <;> rfl

/-- No instruction reads ST or `dirty`: with other values in them it answers the same state but for those two. -/
theorem exec_outputs_not_read {i : Instr} {s t : State} (h : exec i s = .next t) (st : Byte) (dirty : Bool) :
    ∃ st' dirty', exec i { s with st := st, dirty := dirty } = .next { t with st := st', dirty := dirty' } := by
  cases i with
  | ret =>
    by_cases hsp : s.sp.val = 0
    · cases (exec_ret_of_empty s hsp).symm.trans h
      exact ⟨_, _, exec_ret_of_empty { s with st := st, dirty := dirty } hsp⟩
    · cases (exec_ret_of_entry s hsp).symm.trans h
      exact ⟨_, _, exec_ret_of_entry { s with st := st, dirty := dirty } hsp⟩
  | call nnn =>
    rcases Nat.lt_or_ge s.sp.val 16 with hsp | hsp
    · cases (exec_call_of_room nnn s hsp).symm.trans h
      exact ⟨_, _, exec_call_of_room nnn { s with st := st, dirty := dirty } hsp⟩
    · have hfull : s.sp.val = 16 := by omega
      cases (exec_call_of_full nnn s hfull).symm.trans h
      exact ⟨_, _, exec_call_of_full nnn { s with st := st, dirty := dirty } hfull⟩
  | seVxKk | sneVxKk | seVxVy | sneVxVy | skp | sknp =>
    cases h
    exact ⟨_, _, congrArg Host.Outcome.next (skipIf_outputs _ s st dirty)⟩
  | ldVxK x =>
    cases hk : lowestPressed s.keys with
    | none =>
      cases (exec_ldVxK_of_none x s hk).symm.trans h
      exact ⟨_, _, exec_ldVxK_of_none x { s with st := st, dirty := dirty } hk⟩
    | some k =>
      cases (exec_ldVxK_of_pressed x s k hk).symm.trans h
      exact ⟨_, _, exec_ldVxK_of_pressed x { s with st := st, dirty := dirty } k hk⟩
  | ldBVx | ldMemVx | ldVxMem | drw =>
    simp only [exec, execLdBVx, execLdMemVx, execLdVxMem, execDrw] at h
    split at h
    · next hin =>
      cases h
      exact ⟨_, _, if_pos hin⟩
    · next hout =>
      cases h
      exact ⟨_, _, if_neg hout⟩
  | rnd x kk =>
    cases h
    refine ⟨st, dirty, ?_⟩
    rw [exec_rnd, afterDraw_outputs]
    rfl
  | _ =>
    cases h
    exact ⟨_, _, rfl⟩

theorem decodeExecute_outputs_not_read {op : Word} {s t : State} (h : decodeExecute op s = .next t) (st : Byte)
    (dirty : Bool) : ∃ st' dirty',
      decodeExecute op { s with st := st, dirty := dirty } = .next { t with st := st', dirty := dirty' } := by
  cases hd : decodeWord op with
  | ok i =>
    rw [decodeExecute_of_ok _ hd] at h ⊢
    exact exec_outputs_not_read h st dirty
  | error e =>
    simp only [decodeExecute, hd] at h ⊢
    cases h
    exact ⟨_, _, rfl⟩

/-- A cycle reads none of ST, `dirty` and `opcode_reg`: it fetches the word before it executes. -/
theorem cycle_outputs_not_read {s t : State} (h : cycle s = .next t) (st : Byte) (dirty : Bool) (op : Word) :
    ∃ st' dirty' op', cycle { s with st := st, dirty := dirty, opcodeReg := op } =
      .next { t with st := st', dirty := dirty', opcodeReg := op' } := by
  by_cases hh : s.halted = true
  · cases (cycle_of_halted s hh).symm.trans h
    exact ⟨_, _, _, cycle_of_halted { s with st := st, dirty := dirty, opcodeReg := op } hh⟩
  · have hrun : s.halted = false := by simpa using hh
    rcases le_or_gt s.pc.toNat 0xFFE with hp | hp
    · rw [cycle_of_fetch s hrun hp] at h
      rw [cycle_of_fetch { s with st := st, dirty := dirty, opcodeReg := op } hrun hp]
      obtain ⟨st', dirty', hx⟩ := decodeExecute_outputs_not_read h st dirty
      exact ⟨st', dirty', _, hx⟩
    · cases (cycle_of_pc_above s hrun hp).symm.trans h
      exact ⟨_, _, _, cycle_of_pc_above { s with st := st, dirty := dirty, opcodeReg := op } hrun hp⟩

end Sys2Proof.Machine
end

section
/-! The obligations on the draws and on the outputs (00_scope.md R13, 10_state.md sections 6, 8 and 9). -/

namespace Sys2Proof
open Machine

/-- Settles O60: a cycle that executes Cxkk answers the state after its draw; every other step keeps the draws. -/
theorem onlyExecutionsOfRndTakeADraw : Obligations.OnlyExecutionsOfRndTakeADraw := by
  intro s t h
  refine ⟨fun hr => ?_, step_keeps_draws h⟩
  obtain ⟨rest, x, kk, hn, hh, hp, hd⟩ := (executesRandom_iff s).mp hr
  cases (step_of_decodes hn hh hp hd).symm.trans h
  refine ⟨x, kk, hd, readV_writeV_same _ x _, ?_, ?_⟩
  · rw [writeV_draws, afterDraw_draws]
  · rw [writeV_drawCount, afterDraw_drawCount]

/-- Settles O52: both cycles fetch the same word, and what is executed reads none of the three. -/
theorem outputsAreNotReadBack : Obligations.OutputsAreNotReadBack := by
  intro s t rest st dirty op hn h
  rw [step_of_cycleNext s rest hn] at h
  rw [step_of_cycleNext { s with st := st, dirty := dirty, opcodeReg := op } rest hn]
  obtain ⟨st', dirty', op', hc⟩ := cycle_outputs_not_read h st dirty op
  exact ⟨_, hc, rfl⟩

end Sys2Proof
end
